-- ==== Sys2Proof/Word.lean ====
section
/-!
DEFINITION. The values the ports carry: bits, nibbles, fp3 patterns, operation selects, the eight named fp3 values, and
native-float words (spec/00_scope.md R6, R7, R12, R14; spec/10_state.md R120 to R123).
-/

namespace Sys2Proof

/-- A Bit: Zero is `0#1` and One is `1#1` (R7, R120). -/
abbrev Bit := BitVec 1

/-- A Nibble on a 4-bit port: port bit 3 is the sign bit, port bit 0 the least significant (R8, R121). -/
abbrev Nibble := BitVec 4

/-- An fp3 pattern as carried on a 3-bit port, one bit each of sign, exponent and mantissa (R122). -/
abbrev F3 := BitVec 3

/-- The operation select `op[4:0]` (R300). -/
abbrev OpSel := BitVec 5

/-- The eight named fp3 values: the document's constants (R14). -/
inductive Fp3 where
  | posZero
  | posOne
  | posInfinity
  | posNan
  | negZero
  | negOne
  | negInfinity
  | negNan
  deriving DecidableEq, Repr

/-- The native float format, parameter `NATIVE_FMT` (R6). -/
inductive NativeFmt where
  | binary32
  | binary64
  deriving DecidableEq, Repr

/-- `FW`: the width of the native float word (R6). -/
def NativeFmt.width : NativeFmt → Nat
  | .binary32 => 32
  | .binary64 => 64

/-- The width of the exponent field `E` (R12). -/
def NativeFmt.expBits : NativeFmt → Nat
  | .binary32 => 8
  | .binary64 => 11

/-- The width of the fraction field `F` (R12). -/
def NativeFmt.fracBits : NativeFmt → Nat
  | .binary32 => 23
  | .binary64 => 52

/-- A native float: an FW-bit word together with the format that gives FW (R123).  Every pattern of the width is a
native float. -/
inductive NativeWord where
  | b32 (w : BitVec 32)
  | b64 (w : BitVec 64)
  deriving DecidableEq, Repr

/-- The format of a native word. -/
def NativeWord.fmt : NativeWord → NativeFmt
  | .b32 _ => .binary32
  | .b64 _ => .binary64

/-- The word read as an unsigned integer. -/
def NativeWord.bits : NativeWord → Nat
  | .b32 w => w.toNat
  | .b64 w => w.toNat

/-- The word of format `fmt` whose unsigned reading is `n` modulo `2 ^ FW`. -/
def NativeWord.ofBits (fmt : NativeFmt) (n : Nat) : NativeWord :=
  match fmt with
  | .binary32 => .b32 (BitVec.ofNat 32 n)
  | .binary64 => .b64 (BitVec.ofNat 64 n)

end Sys2Proof
end

