-- ==== Sys2Proof/Syntax.lean ====
section
/-!
DEFINITION. The operations of the block, one constructor per row of spec/opcode_table.json (spec/30_encoding.md R302).
An operation has no operand fields: its operands come from the input ports (R300, R303).
-/

namespace Sys2Proof

/-- The 21 operations (R302). -/
inductive Instr where
  | band
  | bor
  | bxor
  | bnot
  | bnand
  | badd
  | add4
  | sub4
  | not4
  | neg4
  | f3enc
  | f3dec
  | f3neg
  | f3eq
  | f3add
  | f3sub
  | f3mul
  | f3div
  | f3rem
  | f3one
  | f3zero
  deriving DecidableEq, Repr

/-- The units of R2, and the extra fp3 operations of R3. -/
inductive ArithUnit where
  | singleBitAlu
  | rippleCarryAdder
  | twosComplementNegator
  | fp3Encoder
  | fp3Decoder
  | fp3Operation
  deriving DecidableEq, Repr

end Sys2Proof
end

