-- ==== Sys2Proof/Config.lean ====
section
/-!
DEFINITION. What is fixed when the block is built (spec/00_scope.md R6), as plain data, and the one free value of the spec:
the NaN-sign draw (R13, R680).

The configuration is carried in State so that every statement about every state is a statement about every configuration,
and so that a machine of any configuration can be evaluated (notes/assumptions/5.md).  No step changes it (R113).
-/

namespace Sys2Proof

/-- `F3_MAP`: the pattern of each of the eight named fp3 values (R6; N9, D6: a configuration table that must be a bijection,
which `F3Map.wf` of WellFormed.lean checks). -/
structure F3Map where
  posZero     : F3
  posOne      : F3
  posInfinity : F3
  posNan      : F3
  negZero     : F3
  negOne      : F3
  negInfinity : F3
  negNan      : F3
  deriving DecidableEq, Repr

/-- `NATIVE_FMT` with `NAN_PAYLOAD`, the fraction field of the NaN words the decoder drives (R6, R602).  The payload has the
width of the format's fraction field. -/
inductive NativeConfig where
  | binary32 (nanPayload : BitVec 23)
  | binary64 (nanPayload : BitVec 52)
  deriving DecidableEq, Repr

/-- The format of a native configuration. -/
def NativeConfig.fmt : NativeConfig → NativeFmt
  | .binary32 _ => .binary32
  | .binary64 _ => .binary64

/-- The build-time parameters of the block (R6, R113). -/
structure Config where
  native : NativeConfig
  f3Map  : F3Map
  deriving DecidableEq, Repr

/-- `NATIVE_FMT` of a configuration. -/
def Config.fmt (c : Config) : NativeFmt := c.native.fmt

/-- The free value of the spec: `nan_sign`, the sign of a NaN that the external native unit produces (R13, R680, D16).
Nothing constrains it.  It is applied to the number of draws taken before (`State.draws`), so each draw is fresh
(notes/assumptions/8.md). -/
opaque Config.nanSign : Nat → Bit

end Sys2Proof
end

