-- ==== Sys2Proof/WellFormed.lean ====
section
/-!
DEFINITION. Which terms are meaningful: every operation is (it has no field to check, R300), and a configuration is when its
`F3_MAP` is a bijection and its `NAN_PAYLOAD` makes a NaN (spec/00_scope.md R6, spec/45_fp3_decoder.md R602).
-/

namespace Sys2Proof

/-- An operation has no operand fields (R300: "Operands are not fields of `op`"), so there is nothing to check. -/
def Instr.wf : Instr → Bool
  | .band | .bor | .bxor | .bnot | .bnand | .badd
  | .add4 | .sub4 | .not4 | .neg4
  | .f3enc | .f3dec | .f3neg | .f3eq
  | .f3add | .f3sub | .f3mul | .f3div | .f3rem
  | .f3one | .f3zero => true

/-- The patterns of the eight named values, in the order of R600's table. -/
def F3Map.patterns (m : F3Map) : List F3 :=
  [m.posZero, m.posOne, m.posInfinity, m.posNan, m.negZero, m.negOne, m.negInfinity, m.negNan]

/-- `F3_MAP` is a bijection (N9, D6): eight values, eight patterns, no pattern used twice. -/
def F3Map.wf (m : F3Map) : Bool := decide m.patterns.Nodup

/-- `NAN_PAYLOAD` is the fraction of a NaN: a word with an all-ones exponent and this fraction satisfies `isNaN` exactly when
the fraction is not zero (R12, R602). -/
def NativeConfig.wf : NativeConfig → Bool
  | .binary32 pl => decide (pl ≠ 0#23)
  | .binary64 pl => decide (pl ≠ 0#52)

/-- A configuration the block can be built with. -/
def Config.wf (c : Config) : Bool := c.native.wf && c.f3Map.wf

end Sys2Proof
end

