-- ==== Sys2Proof/Decode.lean ====
section
/-!
DEFINITION. The decoder, total on the 32 values of `op`, and the encoder (spec/30_encoding.md R300 to R305).
-/

namespace Sys2Proof

/-- Why the decoder gives no operation: the `op` value is one of the 11 reserved ones (R304). -/
inductive DecodeError where
  /-- The reserved `op` value. -/
  | reservedOp (op : OpSel)
  deriving DecidableEq, Repr

/-- The unit-group field `grp = op[4:3]` (R300). -/
def opGroup (op : OpSel) : BitVec 2 := op.extractLsb' 3 2

/-- The function field `fn = op[2:0]` (R300). -/
def opFunction (op : OpSel) : BitVec 3 := op.extractLsb' 0 3

/-- The opcode map (R302): `grp` selects the group and `fn` the function within it (R300, R301).  The 11 reserved values
(R304) are listed one by one and rejected by name. -/
def decode (op : OpSel) : Except DecodeError Instr :=
  match (opGroup op).toNat, (opFunction op).toNat with
  -- grp = 00: single_bit_alu
  | 0, 0 => .ok .band
  | 0, 1 => .ok .bor
  | 0, 2 => .ok .bxor
  | 0, 3 => .ok .bnot
  | 0, 4 => .ok .bnand
  | 0, 5 => .ok .badd
  | 0, 6 => .error (.reservedOp op)
  | 0, 7 => .error (.reservedOp op)
  -- grp = 01: ripple_carry_adder_4bit and twos_complement_negator
  | 1, 0 => .ok .add4
  | 1, 1 => .ok .sub4
  | 1, 2 => .ok .not4
  | 1, 3 => .ok .neg4
  | 1, 4 => .error (.reservedOp op)
  | 1, 5 => .error (.reservedOp op)
  | 1, 6 => .error (.reservedOp op)
  | 1, 7 => .error (.reservedOp op)
  -- grp = 10 and grp = 11: the fp3 units and operations
  | 2, 0 => .ok .f3enc
  | 2, 1 => .ok .f3dec
  | 2, 2 => .ok .f3neg
  | 2, 3 => .ok .f3eq
  | 2, 4 => .ok .f3add
  | 2, 5 => .ok .f3sub
  | 2, 6 => .ok .f3mul
  | 2, 7 => .ok .f3div
  | 3, 0 => .ok .f3rem
  | 3, 1 => .ok .f3one
  | 3, 2 => .ok .f3zero
  | 3, 3 => .error (.reservedOp op)
  | 3, 4 => .error (.reservedOp op)
  | 3, 5 => .error (.reservedOp op)
  | 3, 6 => .error (.reservedOp op)
  | 3, 7 => .error (.reservedOp op)
  -- the two fields have no other value
  | _, _ => .error (.reservedOp op)

/-- The encoder: the `op` value of each operation, in hexadecimal as R302 lists it. -/
def encode : Instr → OpSel
  | .band   => 0x00#5
  | .bor    => 0x01#5
  | .bxor   => 0x02#5
  | .bnot   => 0x03#5
  | .bnand  => 0x04#5
  | .badd   => 0x05#5
  | .add4   => 0x08#5
  | .sub4   => 0x09#5
  | .not4   => 0x0A#5
  | .neg4   => 0x0B#5
  | .f3enc  => 0x10#5
  | .f3dec  => 0x11#5
  | .f3neg  => 0x12#5
  | .f3eq   => 0x13#5
  | .f3add  => 0x14#5
  | .f3sub  => 0x15#5
  | .f3mul  => 0x16#5
  | .f3div  => 0x17#5
  | .f3rem  => 0x18#5
  | .f3one  => 0x19#5
  | .f3zero => 0x1A#5

/-- The 11 reserved `op` values (R304). -/
def reservedOps : List OpSel :=
  [0x06#5, 0x07#5, 0x0C#5, 0x0D#5, 0x0E#5, 0x0F#5, 0x1B#5, 0x1C#5, 0x1D#5, 0x1E#5, 0x1F#5]

/-- The `op` value in an opcode-table word of `nbits` bits: the bits at and above `nbits` are zero, and the table's match mask
is 0x1F, so only the low five bits select (R302; notes/assumptions/12.md). -/
def opOfTableWord (nbits w : Nat) : OpSel := BitVec.ofNat 5 (w % 2 ^ nbits)

/-- What the decoder reads from a word numbered as spec/opcode_table.json numbers it. -/
def decodeTableWord (nbits w : Nat) : Option Instr :=
  match decode (opOfTableWord nbits w) with
  | .ok i => some i
  | .error _ => none

/-- The mnemonic of each operation (R302). -/
def Instr.mnemonic : Instr → String
  | .band => "BAND"
  | .bor => "BOR"
  | .bxor => "BXOR"
  | .bnot => "BNOT"
  | .bnand => "BNAND"
  | .badd => "BADD"
  | .add4 => "ADD4"
  | .sub4 => "SUB4"
  | .not4 => "NOT4"
  | .neg4 => "NEG4"
  | .f3enc => "F3ENC"
  | .f3dec => "F3DEC"
  | .f3neg => "F3NEG"
  | .f3eq => "F3EQ"
  | .f3add => "F3ADD"
  | .f3sub => "F3SUB"
  | .f3mul => "F3MUL"
  | .f3div => "F3DIV"
  | .f3rem => "F3REM"
  | .f3one => "F3ONE"
  | .f3zero => "F3ZERO"

/-- The unit that computes each operation (R2, R3, R302). -/
def Instr.arithUnit : Instr → ArithUnit
  | .band | .bor | .bxor | .bnot | .bnand | .badd => .singleBitAlu
  | .add4 | .sub4 => .rippleCarryAdder
  | .not4 | .neg4 => .twosComplementNegator
  | .f3enc => .fp3Encoder
  | .f3dec => .fp3Decoder
  | .f3neg | .f3eq | .f3add | .f3sub | .f3mul | .f3div | .f3rem | .f3one | .f3zero => .fp3Operation

end Sys2Proof
end

