-- ==== Sys2Proof/Machine/Defaults.lean ====
section
/-!
DEFINITION. The default configuration the spec gives: `F3_MAP` of spec/45_fp3_decoder.md R600, `NAN_PAYLOAD` of R602.
-/

namespace Sys2Proof.Machine

/-- The default `F3_MAP`: the fp3 pattern table of R600. -/
def defaultF3Map : F3Map where
  posZero     := 0b000#3
  posOne      := 0b001#3
  posInfinity := 0b010#3
  posNan      := 0b011#3
  negZero     := 0b100#3
  negOne      := 0b101#3
  negInfinity := 0b110#3
  negNan      := 0b111#3

/-- The default `NAN_PAYLOAD` in each format: the canonical quiet NaN, whose fraction has the quiet bit alone set (R602, and
the quiet bits of R12: `w[22]`, `w[51]`). -/
def defaultNative : NativeFmt → NativeConfig
  | .binary32 => .binary32 0x400000#23
  | .binary64 => .binary64 0x8000000000000#52

/-- The default configuration in each format. -/
def defaultConfig (fmt : NativeFmt) : Config where
  native := defaultNative fmt
  f3Map  := defaultF3Map

end Sys2Proof.Machine
end

