-- ==== Sys2Proof/Machine/NativeFloat.lean ====
section
/-!
DEFINITION. The native-float primitives of spec/00_scope.md R12, in both formats, and the exact real number of a finite word.

`real(w)` is kept exact as an integer: `scaledReal w` is `real(w)` times the format's scale, a power of two that makes the
smallest subnormal 1.  Order and equality with 1 and with -1 are then order and equality of integers
(notes/assumptions/22.md).
-/

namespace Sys2Proof.Machine

/-- The all-ones exponent `EMAX` (R12: 0xFF, 0x7FF). -/
def emax (fmt : NativeFmt) : Nat := 2 ^ fmt.expBits - 1

/-- The exponent bias (IEEE-754: 127, 1023). -/
def bias (fmt : NativeFmt) : Nat := 2 ^ (fmt.expBits - 1) - 1

/-- `S(w)`: the sign bit `w[FW-1]` (R12). -/
def signBit : NativeWord → Bit
  | .b32 w => w.extractLsb' 31 1
  | .b64 w => w.extractLsb' 63 1

/-- `E(w)`: the exponent field, `w[30:23]` or `w[62:52]` (R12). -/
def expField : NativeWord → Nat
  | .b32 w => (w.extractLsb' 23 8).toNat
  | .b64 w => (w.extractLsb' 52 11).toNat

/-- `F(w)`: the fraction field, `w[22:0]` or `w[51:0]` (R12). -/
def fracField : NativeWord → Nat
  | .b32 w => (w.extractLsb' 0 23).toNat
  | .b64 w => (w.extractLsb' 0 52).toNat

/-- `M(w)`: the magnitude bits, `w[30:0]` or `w[62:0]`, read as an unsigned integer (R12, R551). -/
def magBits : NativeWord → Nat
  | .b32 w => (w.extractLsb' 0 31).toNat
  | .b64 w => (w.extractLsb' 0 63).toNat

/-- `isNaN(w)`: `E(w) = EMAX and F(w) != 0` (R12). -/
def isNaN (w : NativeWord) : Bool := expField w == emax w.fmt && fracField w != 0

/-- `isInf(w)`: `E(w) = EMAX and F(w) = 0` (R12). -/
def isInf (w : NativeWord) : Bool := expField w == emax w.fmt && fracField w == 0

/-- `isZero(w)`: `M(w) = 0` (R12). -/
def isZero (w : NativeWord) : Bool := magBits w == 0

/-- `isFinite(w)`: `E(w) != EMAX` (R12). -/
def isFinite (w : NativeWord) : Bool := expField w != emax w.fmt

/-- The magnitude bits of 1.0 (R12: 0x3F800000, 0x3FF0000000000000). -/
def oneMag : NativeFmt → Nat
  | .binary32 => 0x3F800000
  | .binary64 => 0x3FF0000000000000

/-- The magnitude bits of infinity, `INF_M` (R551: 0x7F800000, 0x7FF0000000000000). -/
def infMag : NativeFmt → Nat
  | .binary32 => 0x7F800000
  | .binary64 => 0x7FF0000000000000

/-- The scale of `scaledReal`: the number of smallest subnormals in 1.0, `2 ^ (bias + fracBits - 1)`. -/
def scale (fmt : NativeFmt) : Nat := 2 ^ (bias fmt + fmt.fracBits - 1)

/-- The magnitude of a finite word times `scale`: a subnormal (or zero) is its fraction field, a normal number has the hidden
bit and is shifted by its exponent. -/
def scaledMag (w : NativeWord) : Nat :=
  if expField w = 0 then fracField w
  else (2 ^ w.fmt.fracBits + fracField w) * 2 ^ (expField w - 1)

/-- `real(w)` of a finite word, times `scale` (R12). -/
def scaledReal (w : NativeWord) : Int :=
  if signBit w = 1#1 then -(scaledMag w : Int) else (scaledMag w : Int)

/-- The native word with a given sign and magnitude bits. -/
def nativeWord (fmt : NativeFmt) (sgn : Bit) (mag : Nat) : NativeWord :=
  match fmt with
  | .binary32 => .b32 (sgn ++ BitVec.ofNat 31 mag)
  | .binary64 => .b64 (sgn ++ BitVec.ofNat 63 mag)

/-- The NaN word the decoder drives, with a given sign: all-ones exponent and the fraction `NAN_PAYLOAD` (R602). -/
def nanWord (n : NativeConfig) (sgn : Bit) : NativeWord :=
  match n with
  | .binary32 pl => .b32 (sgn ++ 0xFF#8 ++ pl)
  | .binary64 pl => .b64 (sgn ++ 0x7FF#11 ++ pl)

end Sys2Proof.Machine
end

