-- ==== Sys2Proof/Machine/Fp3Table.lean ====
section
/-!
DEFINITION. The eight named fp3 values and the map between names and patterns (spec/45_fp3_decoder.md R600, R601;
parameter `F3_MAP` of spec/00_scope.md R6).
-/

namespace Sys2Proof.Machine

/-- The sign of a named value: 1 exactly for the four NEG_ values (R601). -/
def fp3Sign : Fp3 → Bit
  | .posZero | .posOne | .posInfinity | .posNan => 0#1
  | .negZero | .negOne | .negInfinity | .negNan => 1#1

/-- A named value is one of the two NaNs. -/
def fp3IsNaN : Fp3 → Bool
  | .posNan | .negNan => true
  | .posZero | .posOne | .posInfinity | .negZero | .negOne | .negInfinity => false

/-- A named value is one of the two zeros. -/
def fp3IsZero : Fp3 → Bool
  | .posZero | .negZero => true
  | .posOne | .posInfinity | .posNan | .negOne | .negInfinity | .negNan => false

/-- The value with the other sign (R650: POS_ and NEG_ of each magnitude swap, NaNs included). -/
def fp3Negate : Fp3 → Fp3
  | .posZero     => .negZero
  | .posOne      => .negOne
  | .posInfinity => .negInfinity
  | .posNan      => .negNan
  | .negZero     => .posZero
  | .negOne      => .posOne
  | .negInfinity => .posInfinity
  | .negNan      => .posNan

/-- The NaN bucket of a sign: `NaN*` of R660 is this of the draw. -/
def nanBucket (sgn : Bit) : Fp3 := if sgn = 1#1 then .negNan else .posNan

/-- The infinity of a sign. -/
def infBucket (sgn : Bit) : Fp3 := if sgn = 1#1 then .negInfinity else .posInfinity

/-- `pattern(v)`: the table read from the named value to its pattern (R600). -/
def pattern (m : F3Map) : Fp3 → F3
  | .posZero     => m.posZero
  | .posOne      => m.posOne
  | .posInfinity => m.posInfinity
  | .posNan      => m.posNan
  | .negZero     => m.negZero
  | .negOne      => m.negOne
  | .negInfinity => m.negInfinity
  | .negNan      => m.negNan

/-- `named(z)`: the table read the other way (R600).  A pattern that is none of the first seven is the eighth's, since the
table is a bijection (R608: there is no reserved pattern; `F3Map.wf`). -/
def named (m : F3Map) (z : F3) : Fp3 :=
  if z = m.posZero then .posZero
  else if z = m.posOne then .posOne
  else if z = m.posInfinity then .posInfinity
  else if z = m.posNan then .posNan
  else if z = m.negZero then .negZero
  else if z = m.negOne then .negOne
  else if z = m.negInfinity then .negInfinity
  else .negNan

end Sys2Proof.Machine
end

