-- ==== Sys2Proof/Machine/State.lean ====
section
/-!
DEFINITION. The state: the ports, the build-time parameters and the draw counter (spec/10_state.md R100 to R115, R140).

The block stores nothing.  State holds what one evaluation reads (the input ports) and what it drives (the output ports),
with the parameters of R6.  `draws` is the model's own: it makes each NaN-sign draw fresh (R680).
-/

namespace Sys2Proof.Machine

/-- The input ports, driven by the host (R102). -/
structure Inputs where
  op  : OpSel
  a   : Nibble
  b   : Nibble
  cin : Bit
  p   : F3
  q   : F3
  f   : NativeWord
  deriving DecidableEq, Repr

/-- The output ports, driven by the block (R103). -/
structure Outputs where
  r    : Nibble
  cout : Bit
  ovf  : Bit
  z    : F3
  fo   : NativeWord
  eq   : Bit
  err  : Bit
  deriving DecidableEq, Repr

/-- The ports of one block, its parameters, and the number of NaN-sign draws taken so far. -/
structure State where
  cfg   : Config
  inp   : Inputs
  out   : Outputs
  draws : Nat
  deriving DecidableEq, Repr

/-- The one exception cause (R701), with the model's fault record (R700: "The cause code and the recorded value belong to the
model's fault record"). -/
inductive Fault where
  /-- ILLEGAL_OP: raised by `step` when `op` holds a reserved value.  Records the `op` value, and the state the evaluation
  leaves: `err` driven 1 and every other output 0, from which the host may issue its next evaluation (R700, R712, R713).
  Safe: a faulted evaluation is never a successful result, and nothing is claimed past it unless a claim names `after`. -/
  | illegalOp (op : OpSel) (after : State)
  deriving DecidableEq, Repr

/-- The cause code of a fault (R700, R701: ILLEGAL_OP is code 1). -/
def Fault.causeCode : Fault → Nat
  | .illegalOp _ _ => 1

/-- Why a step has no meaning. -/
inductive Refusal where
  /-- Raised by an arm of `exec` for an operation that has no meaning in the model.  No arm raises it: all 21 operations have
  their meaning.  Safe. -/
  | notModelled (mnemonic : String)
  deriving DecidableEq, Repr

/-- Every output port at 0 (R306), `fo` in the configured format. -/
def Outputs.zero (fmt : NativeFmt) : Outputs where
  r    := 0#4
  cout := 0#1
  ovf  := 0#1
  z    := 0#3
  fo   := NativeWord.ofBits fmt 0
  eq   := 0#1
  err  := 0#1

/-- Every input port at 0, `f` in the configured format. -/
def Inputs.zero (fmt : NativeFmt) : Inputs where
  op  := 0#5
  a   := 0#4
  b   := 0#4
  cin := 0#1
  p   := 0#3
  q   := 0#3
  f   := NativeWord.ofBits fmt 0

/-- The block right after power-up, in a given format.  The spec gives no reset value, since the block has no state (R140,
R800); the input ports hold 0 (notes/assumptions/3.md) and the outputs are `EVAL` of them (R800; notes/assumptions/4.md). -/
def State.powerUp (fmt : NativeFmt) : State where
  cfg   := defaultConfig fmt
  inp   := Inputs.zero fmt
  out   := Outputs.zero fmt
  draws := 0

/-- The state right after reset: power-up in the spec's default format, binary64 (R6, D7; notes/assumptions/5.md). -/
def State.reset : State := State.powerUp .binary64

end Sys2Proof.Machine
end

