-- ==== Sys2Proof/Machine/Values.lean ====
section
/-!
DEFINITION. Bit numbering, the integer readings of a nibble, and the order of bits (spec/00_scope.md R7 to R10,
spec/41_single_bit_alu.md R440).
-/

namespace Sys2Proof.Machine

/-- Port bit `n[k]` of a nibble (R7, R8). -/
def nibbleBit (n : Nibble) (k : Nat) : Bit := n.extractLsb' k 1

/-- The Bit at the document's index `i`, index 0 the most significant: port bit `3 - i` (R8). -/
def documentBit (n : Nibble) (i : Fin 4) : Bit := nibbleBit n (3 - i.val)

/-- The nibble with port bits `s3` down to `s0`: the concatenation written `s3 s2 s1 s0` (R7). -/
def nibbleOf (s3 s2 s1 s0 : Bit) : Nibble := s3 ++ s2 ++ s1 ++ s0

/-- A single-bit result on a nibble port: `r[3:1] = 000`, `r[0] = x` (R400, D15). -/
def bitResult (x : Bit) : Nibble := 0b000#3 ++ x

/-- The unsigned reading of a bit. -/
def bitNat (x : Bit) : Nat := x.toNat

/-- `uval(n)`: the unsigned reading of a nibble (R10). -/
def uval (n : Nibble) : Nat :=
  8 * bitNat (nibbleBit n 3) + 4 * bitNat (nibbleBit n 2) + 2 * bitNat (nibbleBit n 1) + bitNat (nibbleBit n 0)

/-- `sval(n)`: the two's-complement reading of a nibble (R10, R121). -/
def sval (n : Nibble) : Int :=
  -8 * (bitNat (nibbleBit n 3) : Int) + 4 * (bitNat (nibbleBit n 2) : Int) + 2 * (bitNat (nibbleBit n 1) : Int)
    + (bitNat (nibbleBit n 0) : Int)

/-- `nib(k)`: the nibble whose unsigned reading is `k` modulo 16 (R10). -/
def nib (k : Int) : Nibble := BitVec.ofInt 4 k

/-- The order of Bits: Zero < One (R440). -/
def bitLt (x y : Bit) : Bool := x == 0#1 && y == 1#1

end Sys2Proof.Machine
end

