-- ==== Sys2Proof/Machine/Operands.lean ====
section
/-!
DEFINITION. Operand assembly: each operand is taken whole from its input port (spec/30_encoding.md R303), and which ports an
operation reads and drives (spec/10_state.md R102, R103; the "reads" and "drives" of spec/opcode_table.json).
-/

namespace Sys2Proof.Machine

/-- The first single-bit operand, `a[0]` (R303). -/
def bitA (s : State) : Bit := nibbleBit s.inp.a 0

/-- The second single-bit operand, `b[0]` (R303). -/
def bitB (s : State) : Bit := nibbleBit s.inp.b 0

/-- The first nibble operand (R303). -/
def nibbleA (s : State) : Nibble := s.inp.a

/-- The second nibble operand (R303). -/
def nibbleB (s : State) : Nibble := s.inp.b

/-- The carry-in of BADD and ADD4 (R303, D12). -/
def carryIn (s : State) : Bit := s.inp.cin

/-- The named value of the first fp3 operand (R303, R600). -/
def fp3P (s : State) : Fp3 := named s.cfg.f3Map s.inp.p

/-- The named value of the second fp3 operand (R303, R600). -/
def fp3Q (s : State) : Fp3 := named s.cfg.f3Map s.inp.q

/-- The native float operand of F3ENC (R303). -/
def nativeF (s : State) : NativeWord := s.inp.f

/-- What an operation can read of the input ports: a whole port, or bit 0 of a nibble port. -/
inductive InPort where
  | aBit
  | aNibble
  | bBit
  | bNibble
  | cin
  | p
  | q
  | f
  deriving DecidableEq, Repr

/-- The output ports (R103). -/
inductive OutPort where
  | r
  | cout
  | ovf
  | z
  | fo
  | eq
  | err
  deriving DecidableEq, Repr

/-- Two sets of input values agree on what a port entry reads. -/
def InPort.agree (x y : Inputs) : InPort → Bool
  | .aBit    => nibbleBit x.a 0 == nibbleBit y.a 0
  | .aNibble => x.a == y.a
  | .bBit    => nibbleBit x.b 0 == nibbleBit y.b 0
  | .bNibble => x.b == y.b
  | .cin     => x.cin == y.cin
  | .p       => x.p == y.p
  | .q       => x.q == y.q
  | .f       => x.f == y.f

/-- An output port is driven 0. -/
def OutPort.isZero (o : Outputs) : OutPort → Bool
  | .r    => o.r == 0#4
  | .cout => o.cout == 0#1
  | .ovf  => o.ovf == 0#1
  | .z    => o.z == 0#3
  | .fo   => o.fo.bits == 0
  | .eq   => o.eq == 0#1
  | .err  => o.err == 0#1

/-- What each operation reads (spec/opcode_table.json "reads"; R102, R303). -/
def portsRead : Instr → List InPort
  | .band | .bor | .bxor | .bnand => [.aBit, .bBit]
  | .bnot => [.aBit]
  | .badd => [.aBit, .bBit, .cin]
  | .add4 => [.aNibble, .bNibble, .cin]
  | .sub4 => [.aNibble, .bNibble]
  | .not4 | .neg4 => [.aNibble]
  | .f3enc => [.f]
  | .f3dec | .f3neg => [.p]
  | .f3eq | .f3add | .f3sub | .f3mul | .f3div | .f3rem => [.p, .q]
  | .f3one | .f3zero => []

/-- What each operation drives (spec/opcode_table.json "drives"; R103).  Every other output is driven 0 (R306). -/
def portsDriven : Instr → List OutPort
  | .band | .bor | .bxor | .bnot | .bnand | .not4 => [.r]
  | .badd => [.r, .cout]
  | .add4 | .sub4 | .neg4 => [.r, .cout, .ovf]
  | .f3enc | .f3neg | .f3add | .f3sub | .f3mul | .f3div | .f3rem | .f3one | .f3zero => [.z]
  | .f3dec => [.fo]
  | .f3eq => [.eq]

end Sys2Proof.Machine
end

