-- ==== Sys2Proof/Machine/Flags.lean ====
section
/-!
DEFINITION. The full adder and the ripple chain, with the carry-out and signed-overflow outputs
(spec/41_single_bit_alu.md R411; spec/42_ripple_carry_adder.md R450, R451, R456).
-/

namespace Sys2Proof.Machine

/-- `maj(x, y, z)`: 1 when at least two of its inputs are 1 (R9). -/
def maj (x y z : Bit) : Bit := (x &&& y) ||| (x &&& z) ||| (y &&& z)

/-- `FA(x, y, c)`: the sum bit and the carry of the full adder (R411). -/
def fullAdder (x y c : Bit) : Bit × Bit := (x ^^^ y ^^^ c, maj x y c)

/-- What the 4-stage ripple chain gives: the sum, the carry into the top stage and the carry out of it. -/
structure RippleSum where
  sum : Nibble
  c3  : Bit
  c4  : Bit
  deriving DecidableEq, Repr

/-- The ripple chain of R450: the full adder at bits 0 to 3, the carry of stage k into stage k+1 only (R451). -/
def rippleAdd (x y : Nibble) (c0 : Bit) : RippleSum :=
  let st0 := fullAdder (nibbleBit x 0) (nibbleBit y 0) c0
  let st1 := fullAdder (nibbleBit x 1) (nibbleBit y 1) st0.2
  let st2 := fullAdder (nibbleBit x 2) (nibbleBit y 2) st1.2
  let st3 := fullAdder (nibbleBit x 3) (nibbleBit y 3) st2.2
  { sum := nibbleOf st3.1 st2.1 st1.1 st0.1, c3 := st2.2, c4 := st3.2 }

/-- `cout`: the carry out of the last stage (R450, R454: the unsigned carry, not the overflow). -/
def carryOut (rs : RippleSum) : Bit := rs.c4

/-- `ovf`: the carry into the most significant stage XOR the carry out of it (R456). -/
def overflow (rs : RippleSum) : Bit := rs.c3 ^^^ rs.c4

end Sys2Proof.Machine
end

