-- ==== Sys2Proof/Machine/Ops.lean ====
section
/-!
DEFINITION. The shared operations over the ports: driving the inputs, driving the outputs, the reserved-operation error, and
the NaN-sign draw (spec/00_scope.md R11, R13; spec/10_state.md R102, R103; spec/30_encoding.md R306; spec/60_exceptions.md
R700, R712).
-/

namespace Sys2Proof.Machine

/-- The host drives every input port (R101, R102).  `f` is a word of the configured format.

DESIGN CHOICE (notes/assumptions/23.md, unsafe): until the next evaluation the output ports keep the values of the one before.
R812 gives them no value there. -/
def State.drive (s : State) (x : Inputs) : State := { s with inp := x }

/-- Every output driven 0: what an operation starts from, so that an output it does not drive is 0 (R306). -/
def undriven (s : State) : Outputs := Outputs.zero s.cfg.fmt

/-- The evaluation completes: the block drives these outputs, and nothing else changes (R100, R104). -/
def complete (s : State) (o : Outputs) : Host.Outcome State Fault Refusal := .next { s with out := o }

/-- Drive `r` alone. -/
def completeR (s : State) (r : Nibble) : Host.Outcome State Fault Refusal :=
  complete s { undriven s with r := r }

/-- Drive `r`, `cout` and `ovf` from the ripple chain (R450, R456). -/
def completeRipple (s : State) (rs : RippleSum) : Host.Outcome State Fault Refusal :=
  complete s { undriven s with r := rs.sum, cout := carryOut rs, ovf := overflow rs }

/-- Drive `z` alone, with the pattern of a named value (R600). -/
def completeZ (s : State) (v : Fp3) : Host.Outcome State Fault Refusal :=
  complete s { undriven s with z := pattern s.cfg.f3Map v }

/-- The reserved-operation error, `raise Err(ILLEGAL_OP, op)`: `err` is driven 1 and every other output 0; nothing is saved,
no mode changes and no vector is taken (R700, R712). -/
def raiseErr (s : State) : State := { s with out := { undriven s with err := 1#1 } }

/-- Taking the one exception (R700, R701): a fault that records the `op` value, with the state the evaluation leaves.  There
is no return operation and nothing to restore (R713): the host issues its next evaluation from that state. -/
def takeIllegalOp (s : State) (op : OpSel) : Host.Outcome State Fault Refusal := .fault (.illegalOp op (raiseErr s))

/-- The sign of the next NaN the native unit produces (R680). -/
def nextNanSign (s : State) : Bit := Config.nanSign s.draws

/-- One draw has been taken (R680: "afresh for this evaluation"). -/
def State.drawn (s : State) : State := { s with draws := s.draws + 1 }

/-- The result is a NaN: its bucket is the one of the drawn sign (R660, R680). -/
def completeDrawnNaN (s : State) : Host.Outcome State Fault Refusal := completeZ s.drawn (nanBucket (nextNanSign s))

end Sys2Proof.Machine
end

