-- ==== Sys2Proof/Machine/Fp3Decoder.lean ====
section
/-!
DEFINITION. fp3_decoder: F3DEC (spec/45_fp3_decoder.md).
-/

namespace Sys2Proof.Machine

/-- The `NATIVE` table of R604; its NaN rows are R602's, with the payload of the configuration. -/
def native (n : NativeConfig) (v : Fp3) : NativeWord :=
  match n, v with
  | .binary32 _, .posZero     => .b32 0x00000000#32
  | .binary32 _, .posOne      => .b32 0x3F800000#32
  | .binary32 _, .posInfinity => .b32 0x7F800000#32
  | .binary32 _, .posNan      => nanWord n 0#1
  | .binary32 _, .negZero     => .b32 0x80000000#32
  | .binary32 _, .negOne      => .b32 0xBF800000#32
  | .binary32 _, .negInfinity => .b32 0xFF800000#32
  | .binary32 _, .negNan      => nanWord n 1#1
  | .binary64 _, .posZero     => .b64 0x0000000000000000#64
  | .binary64 _, .posOne      => .b64 0x3FF0000000000000#64
  | .binary64 _, .posInfinity => .b64 0x7FF0000000000000#64
  | .binary64 _, .posNan      => nanWord n 0#1
  | .binary64 _, .negZero     => .b64 0x8000000000000000#64
  | .binary64 _, .negOne      => .b64 0xBFF0000000000000#64
  | .binary64 _, .negInfinity => .b64 0xFFF0000000000000#64
  | .binary64 _, .negNan      => nanWord n 1#1

/-- F3DEC (R603): the native word of the named value of `p`. -/
def execF3Dec (s : State) : Host.Outcome State Fault Refusal :=
  complete s { undriven s with fo := native s.cfg.native (fp3P s) }

end Sys2Proof.Machine
end

