-- ==== Sys2Proof/Machine/Fp3Encoder.lean ====
section
/-!
DEFINITION. fp3_encoder: F3ENC (spec/44_fp3_encoder.md).
-/

namespace Sys2Proof.Machine

/-- The bucket of a native float: the ordered rules of R550, first match wins.  `real(w) = 1` is `scaledReal w = scale`, and
so on. -/
def bucket (w : NativeWord) : Fp3 :=
  let one : Int := scale w.fmt
  if isInf w && signBit w == 0#1 then .posInfinity
  else if isInf w && signBit w == 1#1 then .negInfinity
  else if isZero w && signBit w == 0#1 then .posZero
  else if isZero w && signBit w == 1#1 then .negZero
  else if !isNaN w && scaledReal w == one then .posOne
  else if !isNaN w && scaledReal w == -one then .negOne
  else if !isNaN w && decide (scaledReal w > one) then .posInfinity
  else if !isNaN w && decide (scaledReal w < -one) then .negInfinity
  else if signBit w == 0#1 then .posNan
  else .negNan

/-- F3ENC (R550): it has no failure path and drives no IEEE-754 flag (R554). -/
def execF3Enc (s : State) : Host.Outcome State Fault Refusal := completeZ s (bucket (nativeF s))

end Sys2Proof.Machine
end

