-- ==== Sys2Proof/Machine/NativeOp.lean ====
section
/-!
DEFINITION. `NATIVE_OP`, the external IEEE-754 unit of F3ADD, F3SUB, F3MUL, F3DIV and F3REM (spec/46_fp3_ops.md R660, R666):
round-to-nearest-even, no flush-to-zero, no denormals-are-zero, in the configured format.

The unit is defined on every pair of words: finite operands are taken as exact scaled integers, the operation is done exactly,
and the result is rounded once.  The signed-zero, infinity and invalid-operation results are IEEE-754's
(PRESUMED, notes/assumptions/10.md; R666 supplies them from general knowledge).
-/

namespace Sys2Proof.Machine

/-- A native word sorted by R12's predicates; `mag` is `scaledMag`. -/
inductive NativeValue where
  | nan
  | infinite (sgn : Bit)
  | finite (sgn : Bit) (mag : Nat)
  deriving DecidableEq, Repr

/-- The result of the native unit: a NaN, of which the spec fixes neither sign nor payload (R680), or the word of a number. -/
inductive NativeResult where
  | nan
  | number (w : NativeWord)
  deriving DecidableEq, Repr

/-- The value a native word denotes. -/
def nativeValue (w : NativeWord) : NativeValue :=
  if isNaN w then .nan
  else if isInf w then .infinite (signBit w)
  else .finite (signBit w) (scaledMag w)

/-- Round half to even: the integer nearest to `num / den`, the even one of two equally near. -/
def roundHalfEven (num den : Nat) : Nat :=
  let q := num / den
  let twiceRest := 2 * (num % den)
  if twiceRest > den ∨ (twiceRest = den ∧ q % 2 = 1) then q + 1 else q

/-- The word of sign `sgn` nearest to magnitude `num / den` (in units of the smallest subnormal), by round-to-nearest-even.
`shift` is how far the leading bit lies above the fraction field; a rounded significand that carries out moves to the next
exponent by plain addition, and a magnitude at or above the format's overflow threshold becomes infinity. -/
def roundToWord (fmt : NativeFmt) (sgn : Bit) (num den : Nat) : NativeWord :=
  let shift := Nat.log2 (num / den) - fmt.fracBits
  let significand := roundHalfEven num (den * 2 ^ shift)
  nativeWord fmt sgn (min (shift * 2 ^ fmt.fracBits + significand) (infMag fmt))

/-- The word of an infinity. -/
def infWord (fmt : NativeFmt) (sgn : Bit) : NativeWord := nativeWord fmt sgn (infMag fmt)

/-- The word of a zero. -/
def zeroWord (fmt : NativeFmt) (sgn : Bit) : NativeWord := nativeWord fmt sgn 0

/-- A finite value as a signed integer. -/
def signedMag (sgn : Bit) (mag : Nat) : Int := if sgn = 1#1 then -(mag : Int) else (mag : Int)

/-- The sum of two values: infinities of opposite sign are invalid; an exact zero sum is -0 only when both operands are
negative (round-to-nearest-even). -/
def addValues (fmt : NativeFmt) : NativeValue → NativeValue → NativeResult
  | .nan, _ => .nan
  | _, .nan => .nan
  | .infinite s, .infinite t => if s = t then .number (infWord fmt s) else .nan
  | .infinite s, .finite _ _ => .number (infWord fmt s)
  | .finite _ _, .infinite t => .number (infWord fmt t)
  | .finite s m, .finite t n =>
    let sum := signedMag s m + signedMag t n
    if sum = 0 then .number (zeroWord fmt (s &&& t))
    else .number (roundToWord fmt (if sum < 0 then 1#1 else 0#1) sum.natAbs 1)

/-- The value with its sign flipped. -/
def negValue : NativeValue → NativeValue
  | .nan => .nan
  | .infinite s => .infinite (~~~s)
  | .finite s m => .finite (~~~s) m

/-- Addition of native words. -/
def nativeAdd (x y : NativeWord) : NativeResult := addValues x.fmt (nativeValue x) (nativeValue y)

/-- Subtraction of native words: the sum with the negated subtrahend. -/
def nativeSub (x y : NativeWord) : NativeResult := addValues x.fmt (nativeValue x) (negValue (nativeValue y))

/-- The product of two values: 0 times an infinity is invalid; the sign is the XOR of the signs. -/
def mulValues (fmt : NativeFmt) : NativeValue → NativeValue → NativeResult
  | .nan, _ => .nan
  | _, .nan => .nan
  | .infinite s, .infinite t => .number (infWord fmt (s ^^^ t))
  | .infinite s, .finite t n => if n = 0 then .nan else .number (infWord fmt (s ^^^ t))
  | .finite s m, .infinite t => if m = 0 then .nan else .number (infWord fmt (s ^^^ t))
  | .finite s m, .finite t n => .number (roundToWord fmt (s ^^^ t) (m * n) (scale fmt))

/-- Multiplication of native words. -/
def nativeMul (x y : NativeWord) : NativeResult := mulValues x.fmt (nativeValue x) (nativeValue y)

/-- The quotient of two values: 0 / 0 and infinity / infinity are invalid; a nonzero number over 0 is an infinity. -/
def divValues (fmt : NativeFmt) : NativeValue → NativeValue → NativeResult
  | .nan, _ => .nan
  | _, .nan => .nan
  | .infinite _, .infinite _ => .nan
  | .infinite s, .finite t _ => .number (infWord fmt (s ^^^ t))
  | .finite s _, .infinite t => .number (zeroWord fmt (s ^^^ t))
  | .finite s m, .finite t n =>
    if n = 0 then (if m = 0 then .nan else .number (infWord fmt (s ^^^ t)))
    else .number (roundToWord fmt (s ^^^ t) (m * scale fmt) n)

/-- Division of native words. -/
def nativeDiv (x y : NativeWord) : NativeResult := divValues x.fmt (nativeValue x) (nativeValue y)

/-- The truncated remainder `x - y * trunc(x / y)`, with the sign of `x` (R665, D17): infinity rem y and x rem 0 are invalid,
and a finite x rem infinity is x. -/
def remValues (fmt : NativeFmt) : NativeValue → NativeValue → NativeResult
  | .nan, _ => .nan
  | _, .nan => .nan
  | .infinite _, .infinite _ => .nan
  | .infinite _, .finite _ _ => .nan
  | .finite s m, .infinite _ => .number (roundToWord fmt s m 1)
  | .finite s m, .finite _ n => if n = 0 then .nan else .number (roundToWord fmt s (m % n) 1)

/-- The truncated remainder of native words. -/
def nativeRem (x y : NativeWord) : NativeResult := remValues x.fmt (nativeValue x) (nativeValue y)

end Sys2Proof.Machine
end

