-- ==== Sys2Proof/Machine/Fp3Ops.lean ====
section
/-!
DEFINITION. The fp3 operations: F3NEG, F3EQ, F3ADD, F3SUB, F3MUL, F3DIV, F3REM, F3ONE, F3ZERO (spec/46_fp3_ops.md).

The rules' raw patterns are those of the default `F3_MAP`; here they are read as the named values they stand for, so that the
operations keep their meaning under every bijection (D5, D6; notes/assumptions/6.md).
-/

namespace Sys2Proof.Machine

/-- F3NEG (R650): the value with the other sign; under the default map this flips `p[2]` and nothing else. -/
def execF3Neg (s : State) : Host.Outcome State Fault Refusal := completeZ s (fp3Negate (fp3P s))

/-- F3EQ's result (R655): equal patterns that are not NaN, or two zeros. -/
def fp3Equal (s : State) : Bool :=
  (!fp3IsNaN (fp3P s) && !fp3IsNaN (fp3Q s) && s.inp.p == s.inp.q) || (fp3IsZero (fp3P s) && fp3IsZero (fp3Q s))

/-- F3EQ (R655). -/
def execF3Eq (s : State) : Host.Outcome State Fault Refusal :=
  complete s { undriven s with eq := if fp3Equal s then 1#1 else 0#1 }

/-- The composite form of R660: decode both operands, do the native operation, then draw the sign of a NaN result or encode
the result of a number. -/
def fp3Arith (op : NativeWord → NativeWord → NativeResult) (s : State) : Host.Outcome State Fault Refusal :=
  match op (native s.cfg.native (fp3P s)) (native s.cfg.native (fp3Q s)) with
  | .nan => completeDrawnNaN s
  | .number w => completeZ s (bucket w)

/-- F3ADD (R661). -/
def execF3Add (s : State) : Host.Outcome State Fault Refusal := fp3Arith nativeAdd s

/-- F3SUB (R662). -/
def execF3Sub (s : State) : Host.Outcome State Fault Refusal := fp3Arith nativeSub s

/-- F3MUL (R663). -/
def execF3Mul (s : State) : Host.Outcome State Fault Refusal := fp3Arith nativeMul s

/-- F3DIV (R664): division by zero is no fault. -/
def execF3Div (s : State) : Host.Outcome State Fault Refusal := fp3Arith nativeDiv s

/-- F3REM (R665): the truncated remainder. -/
def execF3Rem (s : State) : Host.Outcome State Fault Refusal := fp3Arith nativeRem s

/-- F3ONE (R670): the constant POS_ONE. -/
def execF3One (s : State) : Host.Outcome State Fault Refusal := completeZ s .posOne

/-- F3ZERO (R671): the constant POS_ZERO (D19). -/
def execF3Zero (s : State) : Host.Outcome State Fault Refusal := completeZ s .posZero

end Sys2Proof.Machine
end

