-- ==== Sys2Proof/Machine/Negator.lean ====
section
/-!
DEFINITION. twos_complement_negator: NOT4, NEG4 (spec/43_negator.md).
-/

namespace Sys2Proof.Machine

/-- NOT4 (R500): every bit flips. -/
def execNot4 (s : State) : Host.Outcome State Fault Refusal := completeR s (~~~(nibbleA s))

/-- NEG4 (R510): the complement of `a` plus 0000 with carry-in 1, through the ripple chain. -/
def execNeg4 (s : State) : Host.Outcome State Fault Refusal :=
  completeRipple s (rippleAdd (~~~(nibbleA s)) 0b0000#4 1#1)

end Sys2Proof.Machine
end

