-- ==== Sys2Proof/Machine/RippleAdder.lean ====
section
/-!
DEFINITION. ripple_carry_adder_4bit: ADD4, SUB4 (spec/42_ripple_carry_adder.md).
-/

namespace Sys2Proof.Machine

/-- ADD4 (R450). -/
def execAdd4 (s : State) : Host.Outcome State Fault Refusal :=
  completeRipple s (rippleAdd (nibbleA s) (nibbleB s) (carryIn s))

/-- SUB4 (R460): the chain with the complement of `b` and carry-in 1.  `cout` is that chain's carry, 1 for no borrow, and is
not inverted (R462). -/
def execSub4 (s : State) : Host.Outcome State Fault Refusal :=
  completeRipple s (rippleAdd (nibbleA s) (~~~(nibbleB s)) 1#1)

end Sys2Proof.Machine
end

