-- ==== Sys2Proof/Machine/SingleBit.lean ====
section
/-!
DEFINITION. single_bit_alu: BAND, BOR, BXOR, BNOT, BNAND, BADD (spec/41_single_bit_alu.md).
-/

namespace Sys2Proof.Machine

/-- BAND (R400). -/
def execBand (s : State) : Host.Outcome State Fault Refusal := completeR s (bitResult (bitA s &&& bitB s))

/-- BOR (R402). -/
def execBor (s : State) : Host.Outcome State Fault Refusal := completeR s (bitResult (bitA s ||| bitB s))

/-- BXOR (R404). -/
def execBxor (s : State) : Host.Outcome State Fault Refusal := completeR s (bitResult (bitA s ^^^ bitB s))

/-- BNOT (R406): only `r[0]` is complemented. -/
def execBnot (s : State) : Host.Outcome State Fault Refusal := completeR s (bitResult (~~~(bitA s)))

/-- BNAND (R408). -/
def execBnand (s : State) : Host.Outcome State Fault Refusal := completeR s (bitResult (~~~(bitA s &&& bitB s)))

/-- BADD (R410): the full adder of `a[0]`, `b[0]` and `cin`. -/
def execBadd (s : State) : Host.Outcome State Fault Refusal :=
  let fa := fullAdder (bitA s) (bitB s) (carryIn s)
  complete s { undriven s with r := bitResult fa.1, cout := fa.2 }

end Sys2Proof.Machine
end

