-- ==== Sys2Proof/Machine/Dispatch.lean ====
section
/-!
DEFINITION. The meaning of each operation, one arm per constructor (spec/10_state.md R104: an evaluation dispatches to exactly
one operation rule).
-/

namespace Sys2Proof.Machine

def exec (i : Instr) (s : State) : Host.Outcome State Fault Refusal :=
  match i with
  | .band => Sys2Proof.Machine.execBand s
  | .bor => Sys2Proof.Machine.execBor s
  | .bxor => Sys2Proof.Machine.execBxor s
  | .bnot => Sys2Proof.Machine.execBnot s
  | .bnand => Sys2Proof.Machine.execBnand s
  | .badd => Sys2Proof.Machine.execBadd s
  | .add4 => Sys2Proof.Machine.execAdd4 s
  | .sub4 => Sys2Proof.Machine.execSub4 s
  | .not4 => Sys2Proof.Machine.execNot4 s
  | .neg4 => Sys2Proof.Machine.execNeg4 s
  | .f3enc => Sys2Proof.Machine.execF3Enc s
  | .f3dec => Sys2Proof.Machine.execF3Dec s
  | .f3neg => Sys2Proof.Machine.execF3Neg s
  | .f3eq => Sys2Proof.Machine.execF3Eq s
  | .f3add => Sys2Proof.Machine.execF3Add s
  | .f3sub => Sys2Proof.Machine.execF3Sub s
  | .f3mul => Sys2Proof.Machine.execF3Mul s
  | .f3div => Sys2Proof.Machine.execF3Div s
  | .f3rem => Sys2Proof.Machine.execF3Rem s
  | .f3one => Sys2Proof.Machine.execF3One s
  | .f3zero => Sys2Proof.Machine.execF3Zero s

end Sys2Proof.Machine
end

