-- ==== Sys2Proof/Machine/Step.lean ====
section
/-!
DEFINITION. One step is one evaluation of the current input ports (spec/10_state.md R100, R104).
-/

namespace Sys2Proof.Machine

/-- One evaluation: `op` selects one of the 21 operations, or is reserved and raises the error (R104, R305). -/
def step (s : State) : Host.Outcome State Fault Refusal :=
  match decode s.inp.op with
  | .ok i => exec i s
  | .error (.reservedOp op) => takeIllegalOp s op

/-- The state with the operation of an opcode-table word on the `op` port, which is where the next evaluation takes its
operation from.  The host drives `op` (R111, R300); nothing is fetched.  The outputs are kept until that evaluation, as
`State.drive` keeps them (DESIGN CHOICE, notes/assumptions/23.md). -/
def State.withFetchWord (s : State) (nbits w : Nat) : State :=
  { s with inp := { s.inp with op := opOfTableWord nbits w } }

end Sys2Proof.Machine
end

