-- ==== Sys2Proof/Machine/HostConversions.lean ====
section
/-!
DEFINITION. The host-side conversions and renderings (spec/10_state.md R130 to R134; spec/45_fp3_decoder.md R605).  They are
functions of the host, not of the block.  A text is a list of characters.
-/

namespace Sys2Proof.Machine

/-- Why the host's own layer gives no result; the block never sees these. -/
inductive HostRefusal where
  /-- A conversion of an integer outside [-8, 7] to a nibble (R132, I11). -/
  | integerOutsideNibble (k : Int)
  /-- An operand names an evaluation that has not been issued yet (R310). -/
  | unnamedResult
  deriving DecidableEq, Repr

/-- Bit from a boolean (R130). -/
def bitOfBool (x : Bool) : Bit := if x then 1#1 else 0#1

/-- Bit from any integer: nonzero gives One (R130). -/
def bitOfInt (k : Int) : Bit := if k = 0 then 0#1 else 1#1

/-- Bit to an integer (R131). -/
def bitToInt (x : Bit) : Int := if x = 1#1 then 1 else 0

/-- Bit to a boolean (R131). -/
def bitToBool (x : Bit) : Bool := x == 1#1

/-- Nibble from an integer: `nib(k)` in [-8, 7]; any other integer is refused (R132). -/
def nibbleOfInt (k : Int) : Except HostRefusal Nibble :=
  if -8 ≤ k ∧ k ≤ 7 then .ok (nib k) else .error (.integerOutsideNibble k)

/-- Nibble to a signed integer (R133). -/
def nibbleToInt (n : Nibble) : Int := sval n

/-- A Bit renders as the character `0` or `1` (R134). -/
def renderBit (x : Bit) : Char := if x = 1#1 then '1' else '0'

/-- The decimal digit of a number below ten. -/
def digitChar (n : Nat) : Char := Char.ofNat (48 + n)

/-- A Nibble renders as its signed decimal value, with a leading `-` for negatives (R134). -/
def renderNibble (n : Nibble) : List Char :=
  if sval n < 0 then ['-', digitChar (sval n).natAbs] else [digitChar (sval n).natAbs]

/-- An fp3 value renders through the native float that F3DEC gives (R134, R605).  The rendering of native floats is not
specified (N16, I14), so it is a parameter: the host's `renderNative`. -/
def renderFp3 (renderNative : NativeWord → List Char) (c : Config) (p : F3) : List Char :=
  renderNative (native c.native (named c.f3Map p))

end Sys2Proof.Machine
end

