-- ==== Sys2Proof/Machine/HostProgram.lean ====
section
/-!
DEFINITION. The host's programs: a straight-line sequence of evaluations, whose operands are values of the host or outputs of
earlier evaluations (spec/10_state.md R111; spec/30_encoding.md R310, R311; D26, D29).  Nothing here is part of the block, and
nothing of it is in State.
-/

namespace Sys2Proof.Machine

/-- The state after one evaluation, whatever its outcome: a reserved `op` leaves `err` driven 1 and every other output 0
(R700), so `EVAL` is total (R100, R104). -/
def evaluate (s : State) : State :=
  match step s with
  | .next t => t
  | .fault (.illegalOp _ t) => t
  | .refused _ => s

/-- `EVAL` as R104 writes it: the output ports of one evaluation of the given inputs, on a block of configuration `c` that has
taken `draws` draws. -/
def evalPorts (c : Config) (draws : Nat) (x : Inputs) : Outputs :=
  (evaluate { cfg := c, inp := x, out := Outputs.zero c.fmt, draws := draws }).out

/-- A 1-bit operand: a value, or the `cout`, `ovf` or `eq` of the evaluation numbered `t` (the first is 0) (R310). -/
inductive BitSource where
  | lit (v : Bit)
  | coutOf (t : Nat)
  | ovfOf (t : Nat)
  | eqOf (t : Nat)
  deriving DecidableEq, Repr

/-- A nibble operand: a value, the `r` of an earlier evaluation, or one digit `v` for the nibble `000v` (R310). -/
inductive NibbleSource where
  | lit (v : Nibble)
  | rOf (t : Nat)
  | digit (v : BitSource)
  deriving DecidableEq, Repr

/-- An fp3 operand: a pattern, or the `z` of an earlier evaluation (R310). -/
inductive F3Source where
  | lit (v : F3)
  | zOf (t : Nat)
  deriving DecidableEq, Repr

/-- A native-float operand: a word, the `fo` of an earlier evaluation, or the zero word of the configured format. -/
inductive NativeSource where
  | lit (w : NativeWord)
  | foOf (t : Nat)
  | zero
  deriving DecidableEq, Repr

/-- One evaluation as the host issues it (R310).  A port the text does not list is driven 0: the host must drive every port
(R105), and the operation does not read it (R303; notes/assumptions/16.md). -/
structure HostEval where
  op  : OpSel
  a   : NibbleSource := .lit 0#4
  b   : NibbleSource := .lit 0#4
  cin : BitSource := .lit 0#1
  p   : F3Source := .lit 0#3
  q   : F3Source := .lit 0#3
  f   : NativeSource := .zero
  deriving DecidableEq, Repr

/-- A program: a straight-line sequence of evaluations, with no branch (R111, D29). -/
abbrev Program := List HostEval

/-- The value of a 1-bit operand, given the outputs of the evaluations issued so far. -/
def bitValue (results : List Outputs) : BitSource → Option Bit
  | .lit v    => some v
  | .coutOf t => results[t]?.map (·.cout)
  | .ovfOf t  => results[t]?.map (·.ovf)
  | .eqOf t   => results[t]?.map (·.eq)

/-- The value of a nibble operand. -/
def nibbleValue (results : List Outputs) : NibbleSource → Option Nibble
  | .lit v   => some v
  | .rOf t   => results[t]?.map (·.r)
  | .digit v => (bitValue results v).map bitResult

/-- The value of an fp3 operand. -/
def f3Value (results : List Outputs) : F3Source → Option F3
  | .lit v => some v
  | .zOf t => results[t]?.map (·.z)

/-- The value of a native-float operand. -/
def nativeSourceValue (fmt : NativeFmt) (results : List Outputs) : NativeSource → Option NativeWord
  | .lit w  => some w
  | .foOf t => results[t]?.map (·.fo)
  | .zero   => some (NativeWord.ofBits fmt 0)

/-- The input values an evaluation drives; none when an operand names an evaluation not yet issued. -/
def driven (fmt : NativeFmt) (results : List Outputs) (e : HostEval) : Option Inputs :=
  match nibbleValue results e.a, nibbleValue results e.b, bitValue results e.cin, f3Value results e.p,
    f3Value results e.q, nativeSourceValue fmt results e.f with
  | some a, some b, some cin, some p, some q, some f =>
    some { op := e.op, a := a, b := b, cin := cin, p := p, q := q, f := f }
  | _, _, _, _, _, _ => none

/-- Run a program: each evaluation drives the ports and is evaluated, and its outputs are kept under its number.  A reserved
`op` does not stop the host: its outputs are kept with `err = 1`, and the next evaluation follows (R713, program P4). -/
def runProgram (s : State) (results : List Outputs) : Program → Except HostRefusal (State × List Outputs)
  | [] => .ok (s, results)
  | e :: rest =>
    match driven s.cfg.fmt results e with
    | none => .error .unnamedResult
    | some x =>
      let t := evaluate (s.drive x)
      runProgram t (results ++ [t.out]) rest

/-- The outputs of each evaluation of a program run from state `s`. -/
def programResults (s : State) (prog : Program) : Except HostRefusal (List Outputs) :=
  match runProgram s [] prog with
  | .ok (_, results) => .ok results
  | .error r => .error r

/-- A 1-bit operand refers only to the first `n` evaluations. -/
def BitSource.refersBelow (n : Nat) : BitSource → Bool
  | .lit _ => true
  | .coutOf t | .ovfOf t | .eqOf t => decide (t < n)

/-- A nibble operand refers only to the first `n` evaluations. -/
def NibbleSource.refersBelow (n : Nat) : NibbleSource → Bool
  | .lit _ => true
  | .rOf t => decide (t < n)
  | .digit v => v.refersBelow n

/-- An fp3 operand refers only to the first `n` evaluations. -/
def F3Source.refersBelow (n : Nat) : F3Source → Bool
  | .lit _ => true
  | .zOf t => decide (t < n)

/-- A native-float operand refers only to the first `n` evaluations, and a word given as a value has the block's format. -/
def NativeSource.refersBelow (fmt : NativeFmt) (n : Nat) : NativeSource → Bool
  | .lit w => w.fmt == fmt
  | .zero => true
  | .foOf t => decide (t < n)

/-- An evaluation refers only to the first `n` evaluations. -/
def HostEval.refersBelow (fmt : NativeFmt) (n : Nat) (e : HostEval) : Bool :=
  e.a.refersBelow n && e.b.refersBelow n && e.cin.refersBelow n && e.p.refersBelow n && e.q.refersBelow n
    && e.f.refersBelow fmt n

/-- A program whose every operand refers to an evaluation issued before it, `n` evaluations having been issued already, for a
block of format `fmt`. -/
def programWf (fmt : NativeFmt) (n : Nat) : Program → Bool
  | [] => true
  | e :: rest => e.refersBelow fmt n && programWf fmt (n + 1) rest

/-! The pseudo-operations of R311.  `n` is the number of evaluations issued before, so that the second evaluation of an
expansion can name the first. -/

/-- `INC4 a=x` (R311). -/
def inc4 (x : NibbleSource) : Program :=
  [{ op := encode .add4, a := x, b := .lit 0b0000#4, cin := .lit 1#1 }]

/-- `DEC4 a=x` (R311). -/
def dec4 (x : NibbleSource) : Program :=
  [{ op := encode .add4, a := x, b := .lit 0b1111#4, cin := .lit 0#1 }]

/-- `SBC4 a=x, b=y, cin=c` (R311). -/
def sbc4 (n : Nat) (x y : NibbleSource) (c : BitSource) : Program :=
  [{ op := encode .not4, a := y }, { op := encode .add4, a := x, b := .rOf n, cin := c }]

/-- `BNOR a=x, b=y` (R311). -/
def bnor (n : Nat) (x y : NibbleSource) : Program :=
  [{ op := encode .bor, a := x, b := y }, { op := encode .bnot, a := .rOf n }]

/-- `F3ROUND f=w` (R311). -/
def f3round (n : Nat) (w : NativeSource) : Program :=
  [{ op := encode .f3enc, f := w }, { op := encode .f3dec, p := .zOf n }]

/-! Wider arithmetic as host composition: one ADD4 per nibble, least significant first, `cout` of each driven onto `cin` of
the next (R470, program P2a), and the same with NOT4 before each ADD4 for subtraction (SBC4, program P2b). -/

/-- The state after the host issues ADD4 with the given operands. -/
def issueAdd4 (s : State) (x y : Nibble) (c : Bit) : State :=
  evaluate (s.drive { s.inp with op := encode .add4, a := x, b := y, cin := c })

/-- The state after the host issues NOT4 with the given operand. -/
def issueNot4 (s : State) (x : Nibble) : State :=
  evaluate (s.drive { s.inp with op := encode .not4, a := x })

/-- The sum nibbles, least significant first, and the last carry of a chained add. -/
def chainAdd (s : State) (c : Bit) : List (Nibble × Nibble) → List Nibble × Bit
  | [] => ([], c)
  | (x, y) :: rest =>
    let t := issueAdd4 s x y c
    let (rs, co) := chainAdd t t.out.cout rest
    (t.out.r :: rs, co)

/-- The difference nibbles, least significant first, and the last carry (1 for no borrow) of a chained subtract. -/
def chainSub (s : State) (c : Bit) : List (Nibble × Nibble) → List Nibble × Bit
  | [] => ([], c)
  | (x, y) :: rest =>
    let u := issueNot4 s y
    let t := issueAdd4 u x u.out.r c
    let (rs, co) := chainSub t t.out.cout rest
    (t.out.r :: rs, co)

/-- The unsigned number that nibbles denote, least significant first. -/
def nibblesValue : List Nibble → Nat
  | [] => 0
  | x :: rest => uval x + 16 * nibblesValue rest

end Sys2Proof.Machine
end

