-- ==== Sys2Proof/Machine/HostText.lean ====
section
/-!
DEFINITION. The textual form of an evaluation (spec/30_encoding.md R310): the mnemonic, then the operand ports the operation
reads, as `port=value`, separated by commas.  A text is a list of characters.  The form is the spec's own (D26).
-/

namespace Sys2Proof.Machine

/-- A bit vector in binary, most significant bit first (R7). -/
def binaryText {w : Nat} (v : BitVec w) : List Char :=
  (List.range w).reverse.map fun k => renderBit (v.extractLsb' k 1)

/-- One hexadecimal digit. -/
def hexDigit (n : Nat) : Char := if n < 10 then Char.ofNat (48 + n) else Char.ofNat (55 + n)

/-- The low `digits` hexadecimal digits of a number, after `0x`. -/
def hexText (digits n : Nat) : List Char :=
  '0' :: 'x' :: ((List.range digits).reverse.map fun k => hexDigit (n / 16 ^ k % 16))

/-- A native word in hexadecimal, as many digits as its width has. -/
def nativeText (w : NativeWord) : List Char := hexText (w.fmt.width / 4) w.bits

/-- The name of the evaluation numbered `t`: `t1` is the first. -/
def resultName (t : Nat) (port : String) : List Char := 't' :: (toString (t + 1)).toList ++ '.' :: port.toList

/-- A 1-bit operand. -/
def bitSourceText : BitSource → List Char
  | .lit v    => [renderBit v]
  | .coutOf t => resultName t "cout"
  | .ovfOf t  => resultName t "ovf"
  | .eqOf t   => resultName t "eq"

/-- A nibble operand. -/
def nibbleSourceText : NibbleSource → List Char
  | .lit v   => binaryText v
  | .rOf t   => resultName t "r"
  | .digit v => bitSourceText v

/-- A nibble operand of a single-bit operation: "value is the bit a[0], b[0]" (R310). -/
def bitOfNibbleText : NibbleSource → List Char
  | .lit v   => [renderBit (nibbleBit v 0)]
  | .rOf t   => resultName t "r"
  | .digit v => bitSourceText v

/-- An fp3 operand, as `s e m`. -/
def f3SourceText : F3Source → List Char
  | .lit v => binaryText v
  | .zOf t => resultName t "z"

/-- A native-float operand. -/
def nativeSourceText (fmt : NativeFmt) : NativeSource → List Char
  | .lit w  => nativeText w
  | .foOf t => resultName t "fo"
  | .zero   => nativeText (NativeWord.ofBits fmt 0)

/-- One operand port as `port=value`. -/
def operandText (fmt : NativeFmt) (e : HostEval) : InPort → List Char
  | .aBit    => "a=".toList ++ bitOfNibbleText e.a
  | .aNibble => "a=".toList ++ nibbleSourceText e.a
  | .bBit    => "b=".toList ++ bitOfNibbleText e.b
  | .bNibble => "b=".toList ++ nibbleSourceText e.b
  | .cin     => "cin=".toList ++ bitSourceText e.cin
  | .p       => "p=".toList ++ f3SourceText e.p
  | .q       => "q=".toList ++ f3SourceText e.q
  | .f       => "f=".toList ++ nativeSourceText fmt e.f

/-- Texts separated by a comma and a space. -/
def commaText : List (List Char) → List Char
  | [] => []
  | [x] => x
  | x :: rest => x ++ ',' :: ' ' :: commaText rest

/-- Every operand port, nibbles in full. -/
def allPorts : List InPort := [.aNibble, .bNibble, .cin, .p, .q, .f]

/-- The text of an evaluation (R310).  A reserved `op` has no mnemonic: it is written as the value of `op`, then every port the
host drives, as the vectors of spec/95_test_vectors.md section 2.8 write it. -/
def evalText (fmt : NativeFmt) (e : HostEval) : List Char :=
  match decode e.op with
  | .ok i =>
    match portsRead i with
    | [] => i.mnemonic.toList
    | ports => i.mnemonic.toList ++ ' ' :: commaText (ports.map (operandText fmt e))
  | .error _ => commaText (("op=".toList ++ hexText 2 e.op.toNat) :: allPorts.map (operandText fmt e))

end Sys2Proof.Machine
end

