-- ==== Sys2Proof/Safety.lean ====
section
/-!
DEFINITION. What a safe run is, in the terms the statements use: a configuration the block can be built with, outputs that are
`EVAL` of the inputs, and no evaluation with `err = 1`.
-/

namespace Sys2Proof.Machine

/-- The block is built as R6 allows: `F3_MAP` a bijection, `NAN_PAYLOAD` a NaN's (R602, D6). -/
def State.wf (s : State) : Bool := s.cfg.wf

/-- The float ports carry words of the configured format (R102, R103, R123). -/
def State.formatOk (s : State) : Bool := s.inp.f.fmt == s.cfg.fmt && s.out.fo.fmt == s.cfg.fmt

/-- The outputs are `EVAL` of the current inputs, for some value of the draw (R100, R140, R800). -/
def State.Settled (s : State) : Prop := ∃ n : Nat, s.out = evalPorts s.cfg n s.inp

/-- The invariant of the block: it is built as the spec allows, its float ports have their format, and its outputs are `EVAL`
of its inputs. -/
def State.Inv (s : State) : Prop := s.wf = true ∧ s.formatOk = true ∧ s.Settled

/-- `real(w)`, the rational number a finite native word denotes (R12): a subnormal is `F / 2^fracBits * 2^(1 - bias)`, a normal
number `(1 + F / 2^fracBits) * 2^(E - bias)`, with the sign of `S(w)`.  The model itself computes with `scaledReal`; statements
are written with this. -/
def realOf (w : NativeWord) : ℚ :=
  let sgn : ℚ := if signBit w = 1#1 then -1 else 1
  let frac : ℚ := (fracField w : ℚ) / 2 ^ w.fmt.fracBits
  let mag : ℚ :=
    if expField w = 0 then frac * 2 ^ ((1 : ℤ) - (bias w.fmt : ℤ))
    else (1 + frac) * 2 ^ ((expField w : ℤ) - (bias w.fmt : ℤ))
  sgn * mag

/-- The five operations of R660, whose NaN results draw a sign. -/
def drawsNaNSign : Instr → Bool
  | .f3add | .f3sub | .f3mul | .f3div | .f3rem => true
  | .band | .bor | .bxor | .bnot | .bnand | .badd | .add4 | .sub4 | .not4 | .neg4
  | .f3enc | .f3dec | .f3neg | .f3eq | .f3one | .f3zero => false

/-- The premise of a claim about a sequence of evaluations (R700): "no evaluation had `err = 1`". -/
def noErr (results : List Outputs) : Bool := results.all fun o => o.err == 0#1

end Sys2Proof.Machine
end

