-- ==== Sys2Proof/Certificates/Slice0/Obligations.lean ====
section
/-!
DEFINITION. The statements about the block, written from the numbered rules of spec/.

Unless a docstring says otherwise a statement holds for every state, so for every configuration R6 allows and for every value
of the NaN-sign draw.  `Outputs.zero` is every output driven 0, so a result written over it also says what R306 says.

The rules write raw fp3 patterns; D6 makes `F3_MAP` a parameter and keeps claims at the named-value level.  So statements about
fp3 values speak of the named values under every map (notes/assumptions/6.md), and, where a rule gives a bit formula, of the raw
pattern under the default map as well.
-/

open Sys2Proof Sys2Proof.Machine

/-! ## Encoding and dispatch -/

/-- R302: the opcode map, every row, each word written out from the rule's binary column, the reserved rows among them.  The last
clause is the model's reading of the match mask 0x1F (notes/assumptions/12.md): `op` has five bits, so bits of an 8-bit table word
above the fifth select nothing. -/
def Obligations.OpcodeMapWords : Prop :=
  decode 0b00000#5 = .ok .band ∧ decode 0b00001#5 = .ok .bor ∧ decode 0b00010#5 = .ok .bxor
  ∧ decode 0b00011#5 = .ok .bnot ∧ decode 0b00100#5 = .ok .bnand ∧ decode 0b00101#5 = .ok .badd
  ∧ decode 0b01000#5 = .ok .add4 ∧ decode 0b01001#5 = .ok .sub4 ∧ decode 0b01010#5 = .ok .not4
  ∧ decode 0b01011#5 = .ok .neg4 ∧ decode 0b10000#5 = .ok .f3enc ∧ decode 0b10001#5 = .ok .f3dec
  ∧ decode 0b10010#5 = .ok .f3neg ∧ decode 0b10011#5 = .ok .f3eq ∧ decode 0b10100#5 = .ok .f3add
  ∧ decode 0b10101#5 = .ok .f3sub ∧ decode 0b10110#5 = .ok .f3mul ∧ decode 0b10111#5 = .ok .f3div
  ∧ decode 0b11000#5 = .ok .f3rem ∧ decode 0b11001#5 = .ok .f3one ∧ decode 0b11010#5 = .ok .f3zero
  ∧ (∀ op ∈ [0b00110#5, 0b00111#5, 0b01100#5, 0b01101#5, 0b01110#5, 0b01111#5, 0b11011#5, 0b11100#5, 0b11101#5, 0b11110#5,
      0b11111#5], decode op = .error (.reservedOp op))
  ∧ ∀ w : Nat, decodeTableWord 8 w = decodeTableWord 8 (w % 32)

/-- R305 and R304: every one of the 32 values of `op` selects exactly one operation, or is one of the 11 reserved values. -/
def Obligations.DecoderIsTotalAndUnambiguous : Prop :=
  reservedOps.length = 11
  ∧ ∀ op : OpSel,
      (op ∈ reservedOps ∧ decode op = .error (.reservedOp op) ∧ ∀ i : Instr, encode i ≠ op)
      ∨ (op ∉ reservedOps ∧ ∃ i : Instr, decode op = .ok i ∧ ∀ j : Instr, encode j = op ↔ j = i)

/-- Decode and encode agree: decoding the `op` value of any operation gives it back, and no two operations share a value. -/
def Obligations.DecodeOfEncodeIsIdentity : Prop :=
  (∀ i : Instr, decode (encode i) = .ok i) ∧ ∀ i j : Instr, encode i = encode j → i = j

/-- A step runs the decoded operation on the state as it is: the block fetches nothing and advances nothing (R104, R111). -/
def Obligations.StepRunsTheSelectedOperation : Prop :=
  ∀ (s : State) (i : Instr), decode s.inp.op = .ok i → step s = exec i s

/-- R700: a reserved `op` drives `err` to 1 and every other output to 0, and the step is a fault that records the `op` value
under cause code 1. -/
def Obligations.ReservedOpFaultsWithErr : Prop :=
  ∀ s : State, s.inp.op ∈ reservedOps →
    step s = .fault (.illegalOp s.inp.op
      { s with out := { r := 0b0000#4, cout := 0#1, ovf := 0#1, z := 0b000#3, fo := NativeWord.ofBits s.cfg.fmt 0,
                        eq := 0#1, err := 1#1 } })
    ∧ ∀ (op : OpSel) (t : State), (Fault.illegalOp op t).causeCode = 1

/-- R713: a reserved operation leaves nothing behind.  The host's next evaluation, whatever it drives, is the evaluation it
would have been without it, and an assigned `op` then drives `err = 0`. -/
def Obligations.ErrIsNotSticky : Prop :=
  ∀ s : State, s.inp.op ∈ reservedOps → ∃ u : State, step s = .fault (.illegalOp s.inp.op u) ∧
    ∀ x : Inputs, step (u.drive x) = step (s.drive x) ∧
      (x.op ∉ reservedOps → ∃ t : State, step (u.drive x) = .next t ∧ t.out.err = 0#1)

/-! ## Whole-machine rules -/

/-- R701 and R306: not one of the 21 operations raises an exception, for any operand value: each one completes, with `err = 0`.
R441, R471 and R512 say so of the bit and nibble operations, R554, R603 and R681 of the fp3 units and operations. -/
def Obligations.EveryOperationCompletes : Prop :=
  ∀ (i : Instr) (s : State), ∃ t : State, exec i s = .next t ∧ t.out.err = 0#1

/-- R306: an output the operation's rule does not drive is 0, `err` among them for each of the 21 operations; and when `op` is
reserved every output except `err` is 0. -/
def Obligations.UndrivenOutputsAreZero : Prop :=
  (∀ (i : Instr) (s t : State), exec i s = .next t →
    t.out.err = 0#1 ∧ ∀ port : OutPort, port ∉ portsDriven i → port.isZero t.out = true)
  ∧ ∀ (s t : State) (op : OpSel), step s = .fault (.illegalOp op t) →
      ∀ port : OutPort, port ≠ .err → port.isZero t.out = true

/-- R303: an input the operation does not read has no effect on any output (nor on anything else). -/
def Obligations.UnreadInputsHaveNoEffect : Prop :=
  ∀ (i : Instr) (s : State) (y : Inputs), (∀ port ∈ portsRead i, port.agree s.inp y = true) →
    ∃ t : State, exec i s = .next t ∧ exec i (s.drive y) = .next { t with inp := y }

/-- R210, R104: an evaluation is a function of its own inputs: whatever the outputs were before, the step is the same. -/
def Obligations.EarlierOutputsHaveNoEffect : Prop :=
  ∀ (s : State) (o : Outputs), step { s with out := o } = step s

/-- R203: two evaluations with equal inputs give equal outputs, except where an output depends on the draw.  Evaluating twice
changes nothing more; for the five operations of R660 the second evaluation may differ in a NaN's sign alone. -/
def Obligations.EqualInputsGiveEqualOutputs : Prop :=
  ∀ (i : Instr) (s t u : State), exec i s = .next t → exec i t = .next u →
    (drawsNaNSign i = false → u = t)
    ∧ (drawsNaNSign i = true →
        u.out = t.out
        ∨ ∃ x y : Bit, t.out = { Outputs.zero s.cfg.fmt with z := pattern s.cfg.f3Map (nanBucket x) }
            ∧ u.out = { Outputs.zero s.cfg.fmt with z := pattern s.cfg.f3Map (nanBucket y) })

/-- The frame of every operation (R100, R113, R203): no operation changes an input port or the configuration; the draw counter,
which is the model's own, moves by one or not at all, and moves only for the operations of R660. -/
def Obligations.OperationsChangeOnlyOutputs : Prop :=
  ∀ (i : Instr) (s t : State), exec i s = .next t →
    t.cfg = s.cfg ∧ t.inp = s.inp
    ∧ (t.draws = s.draws ∨ (drawsNaNSign i = true ∧ t.draws = s.draws + 1))

/-- The block's invariant is kept by every step: it stays built as R6 allows, its float ports keep their format, and its
outputs are `EVAL` of its inputs (R140, R800).  A faulting evaluation keeps it too. -/
def Obligations.StepKeepsInvariant : Prop :=
  (∀ s t : State, s.Inv → step s = .next t → t.Inv)
  ∧ ∀ (s t : State) (op : OpSel), s.Inv → step s = .fault (.illegalOp op t) → t.Inv

/-- The outputs are `EVAL` of the inputs after ANY step of any state, whatever the outputs were before (R140). -/
def Obligations.EveryStepSettlesOutputs : Prop :=
  ∀ s t : State, step s = .next t → t.Settled

/-- The invariant holds right after power-up, in either format: the outputs are `EVAL` of the inputs (R800).  The inputs'
values there, and the format of reset, are the model's choice (notes/assumptions/3.md, 4.md, 5.md). -/
def Obligations.PowerUpMeetsInvariant : Prop :=
  (∀ fmt : NativeFmt, (State.powerUp fmt).Inv) ∧ State.reset.Inv

/-! ## single_bit_alu -/

/-- R400, R402, R404, R406, R408: the gates, on `a[0]` and `b[0]`, with `r[3:1] = 000` and nothing else driven. -/
def Obligations.SingleBitGateResults : Prop :=
  ∀ s : State,
    let x := s.inp.a.extractLsb' 0 1
    let y := s.inp.b.extractLsb' 0 1
    let zero := Outputs.zero s.cfg.fmt
    exec .band s = .next { s with out := { zero with r := 0b000#3 ++ (x &&& y) } }
    ∧ exec .bor s = .next { s with out := { zero with r := 0b000#3 ++ (x ||| y) } }
    ∧ exec .bxor s = .next { s with out := { zero with r := 0b000#3 ++ (x ^^^ y) } }
    ∧ exec .bnot s = .next { s with out := { zero with r := 0b000#3 ++ ~~~x } }
    ∧ exec .bnand s = .next { s with out := { zero with r := 0b000#3 ++ ~~~(x &&& y) } }

/-- R410 and R411: BADD is the full adder of `a[0]`, `b[0]` and `cin`, and `x + y + c = 2*co + s` as integers. -/
def Obligations.BaddIsTheFullAdder : Prop :=
  ∀ s : State,
    let x := s.inp.a.extractLsb' 0 1
    let y := s.inp.b.extractLsb' 0 1
    let c := s.inp.cin
    let sum := x ^^^ y ^^^ c
    let co := (x &&& y) ||| (x &&& c) ||| (y &&& c)
    exec .badd s = .next { s with out := { Outputs.zero s.cfg.fmt with r := 0b000#3 ++ sum, cout := co } }
    ∧ x.toNat + y.toNat + c.toNat = 2 * co.toNat + sum.toNat

/-- R412: OR is NAND of the complements, XOR is AND of OR and NAND, for every input pair, each gate an evaluation of its own;
and the document's own expression for OR, one NOT too many, differs from OR on every pair (it is NOR). -/
def Obligations.GateIdentitiesHold : Prop :=
  ∀ (c : Config) (n : Nat) (x : Inputs),
    let gate := fun (i : Instr) (a b : Nibble) => (evalPorts c n { x with op := encode i, a := a, b := b }).r
    let notA := gate .bnot x.a x.b
    let notB := gate .bnot x.b x.b
    gate .bor x.a x.b = gate .bnand notA notB
    ∧ gate .bxor x.a x.b = gate .band (gate .bor x.a x.b) (gate .bnand x.a x.b)
    ∧ gate .bnot (gate .bnand notA notB) x.b ≠ gate .bor x.a x.b

/-- R440: Zero < One, the order is total, and `x < y` exactly when `x = 0` and `y = 1`. -/
def Obligations.BitOrderIsZeroBelowOne : Prop :=
  bitLt 0#1 1#1 = true
  ∧ ∀ x y : Bit, (bitLt x y = true ↔ x = 0#1 ∧ y = 1#1) ∧ (bitLt x y = true ∨ x = y ∨ bitLt y x = true)

/-! ## ripple_carry_adder_4bit -/

/-- R450 (with R451's stage order): ADD4's four full-adder stages, from bit 0 to bit 3, written out. -/
def Obligations.Add4RippleChain : Prop :=
  ∀ s : State,
    let fa := fun (x y c : Bit) => (x ^^^ y ^^^ c, (x &&& y) ||| (x &&& c) ||| (y &&& c))
    let a := fun k => s.inp.a.extractLsb' k 1
    let b := fun k => s.inp.b.extractLsb' k 1
    let c1 := (fa (a 0) (b 0) s.inp.cin).2
    let c2 := (fa (a 1) (b 1) c1).2
    let c3 := (fa (a 2) (b 2) c2).2
    let c4 := (fa (a 3) (b 3) c3).2
    exec .add4 s = .next { s with out := { Outputs.zero s.cfg.fmt with
      r := (fa (a 3) (b 3) c3).1 ++ (fa (a 2) (b 2) c2).1 ++ (fa (a 1) (b 1) c1).1 ++ (fa (a 0) (b 0) s.inp.cin).1
      cout := c4
      ovf := c3 ^^^ c4 } }

/-- R452: `uval(r) = t mod 16` and `cout = 1` exactly when `t ≥ 16`, for `t = uval(a) + uval(b) + cin`. -/
def Obligations.Add4UnsignedLaw : Prop :=
  ∀ s : State,
    let t := uval s.inp.a + uval s.inp.b + s.inp.cin.toNat
    t ≤ 31 ∧ ∃ s' : State, exec .add4 s = .next s' ∧ uval s'.out.r = t % 16 ∧ (s'.out.cout = 1#1 ↔ t ≥ 16)

/-- R453: `r = nib(u)`, and `sval(r)` is `u` wrapped into [-8, 7] by adding or subtracting 16, for
`u = sval(a) + sval(b) + cin`. -/
def Obligations.Add4SignedLaw : Prop :=
  ∀ s : State,
    let u : Int := sval s.inp.a + sval s.inp.b + s.inp.cin.toNat
    u ≥ -16 ∧ u ≤ 15 ∧ ∃ s' : State, exec .add4 s = .next s' ∧ s'.out.r = nib u
      ∧ -8 ≤ sval s'.out.r ∧ sval s'.out.r ≤ 7
      ∧ (sval s'.out.r = u ∨ sval s'.out.r = u + 16 ∨ sval s'.out.r = u - 16)

/-- R456: for ADD4, SUB4 and NEG4, `ovf` is the carry into the top stage XOR the carry out of it, and is 1 exactly when the
exact signed result is outside [-8, 7]. -/
def Obligations.OverflowMeansOutOfRange : Prop :=
  ∀ s : State,
    let outside := fun (k : Int) => k < -8 ∨ 7 < k
    (∃ t : State, exec .add4 s = .next t
      ∧ (let chain := rippleAdd s.inp.a s.inp.b s.inp.cin; t.out.ovf = chain.c3 ^^^ chain.c4)
      ∧ (t.out.ovf = 1#1 ↔ outside (sval s.inp.a + sval s.inp.b + s.inp.cin.toNat)))
    ∧ (∃ t : State, exec .sub4 s = .next t
      ∧ (let chain := rippleAdd s.inp.a (~~~s.inp.b) 1#1; t.out.ovf = chain.c3 ^^^ chain.c4)
      ∧ (t.out.ovf = 1#1 ↔ outside (sval s.inp.a - sval s.inp.b)))
    ∧ (∃ t : State, exec .neg4 s = .next t
      ∧ (let chain := rippleAdd (~~~s.inp.a) 0b0000#4 1#1; t.out.ovf = chain.c3 ^^^ chain.c4)
      ∧ (t.out.ovf = 1#1 ↔ outside (-sval s.inp.a)))

/-- R454: `cout` is the unsigned carry, not the signed overflow.  With `cin = 0`, it disagrees with "outside [-8, 7]" on 112 of
the 256 operand pairs, and -1 + -1 gives `r = 1110` with `cout = 1`. -/
def Obligations.CarryIsNotOverflow : Prop :=
  ∀ s : State,
    let add := fun (x y : Nibble) =>
      (evaluate (s.drive { s.inp with op := 0x08#5, a := x, b := y, cin := 0#1 })).out
    let nibbles := (List.range 16).map (BitVec.ofNat 4)
    let pairs := nibbles.flatMap fun x => nibbles.map fun y => (x, y)
    (∀ x y : Nibble, (add x y).cout = 1#1 ↔ uval x + uval y ≥ 16)
    ∧ (pairs.filter fun xy =>
      ((add xy.1 xy.2).cout == 1#1) != decide (sval xy.1 + sval xy.2 < -8 ∨ 7 < sval xy.1 + sval xy.2)).length = 112
    ∧ (add 0b1111#4 0b1111#4).r = 0b1110#4 ∧ (add 0b1111#4 0b1111#4).cout = 1#1

/-- R460: SUB4 is the ADD4 chain with the complement of `b` in place of `b` and carry-in 1; `cin` is not read. -/
def Obligations.Sub4IsAddOfComplement : Prop :=
  ∀ s : State, ∃ t : State,
    exec .add4 (s.drive { s.inp with b := ~~~s.inp.b, cin := 1#1 }) = .next t
    ∧ exec .sub4 s = .next { s with out := t.out }
    ∧ t.out = { Outputs.zero s.cfg.fmt with r := t.out.r, cout := t.out.cout, ovf := t.out.ovf }

/-- R461 and R462: SUB4's unsigned and signed difference; `cout = 1` exactly when no borrow is needed; `ovf`. -/
def Obligations.Sub4Laws : Prop :=
  ∀ s : State, ∃ t : State, exec .sub4 s = .next t
    ∧ (uval t.out.r : Int) = ((uval s.inp.a : Int) - uval s.inp.b) % 16
    ∧ t.out.r = nib (sval s.inp.a - sval s.inp.b)
    ∧ (t.out.cout = 1#1 ↔ uval s.inp.a ≥ uval s.inp.b)
    ∧ (t.out.ovf = 1#1 ↔ sval s.inp.a - sval s.inp.b < -8 ∨ 7 < sval s.inp.a - sval s.inp.b)

/-- R411 and R450 (program P5): ADD4 is four BADD evaluations, the host driving each `cout` onto the next `cin`. -/
def Obligations.Add4IsFourChainedBadds : Prop :=
  ∀ (c : Config) (n : Nat) (x : Inputs),
    let badd := fun (k : Nat) (carry : Bit) =>
      evalPorts c n { x with op := 0x05#5, a := 0b000#3 ++ x.a.extractLsb' k 1, b := 0b000#3 ++ x.b.extractLsb' k 1, cin := carry }
    let s0 := badd 0 x.cin
    let s1 := badd 1 s0.cout
    let s2 := badd 2 s1.cout
    let s3 := badd 3 s2.cout
    let sum := evalPorts c n { x with op := 0x08#5 }
    sum.r = s3.r.extractLsb' 0 1 ++ s2.r.extractLsb' 0 1 ++ s1.r.extractLsb' 0 1 ++ s0.r.extractLsb' 0 1
    ∧ sum.cout = s3.cout ∧ sum.ovf = s2.cout ^^^ s3.cout

/-- R470 (program P2a): a host that chains ADD4 evaluations, each `cout` driven onto the next `cin`, adds numbers of any number
of nibbles. -/
def Obligations.ChainedAdd4AddsWideNumbers : Prop :=
  ∀ (s : State) (c : Bit) (ps : List (Nibble × Nibble)),
    (chainAdd s c ps).1.length = ps.length
    ∧ nibblesValue (chainAdd s c ps).1 + 16 ^ ps.length * (chainAdd s c ps).2.toNat
        = nibblesValue (ps.map (·.1)) + nibblesValue (ps.map (·.2)) + c.toNat

/-- R311's SBC4, chained over any number of nibbles (program P2b): the difference, with the last `cout` 1 for no borrow. -/
def Obligations.ChainedSbc4SubtractsWideNumbers : Prop :=
  ∀ (s : State) (c : Bit) (ps : List (Nibble × Nibble)),
    (chainSub s c ps).1.length = ps.length
    ∧ (nibblesValue (chainSub s c ps).1 : Int) + 16 ^ ps.length * ((chainSub s c ps).2.toNat : Int)
        = (nibblesValue (ps.map (·.1)) : Int) - nibblesValue (ps.map (·.2)) + 16 ^ ps.length - 1 + c.toNat

/-! ## twos_complement_negator -/

/-- R500: every bit of `a` flips; `sval(~a) = -sval(a) - 1`; NOT4 twice gives back `a`. -/
def Obligations.Not4FlipsEveryBit : Prop :=
  ∀ s : State,
    exec .not4 s = .next { s with out := { Outputs.zero s.cfg.fmt with r := ~~~s.inp.a } }
    ∧ sval (~~~s.inp.a) = -sval s.inp.a - 1
    ∧ exec .not4 (s.drive { s.inp with a := ~~~s.inp.a })
        = .next { s with inp := { s.inp with a := ~~~s.inp.a }, out := { Outputs.zero s.cfg.fmt with r := s.inp.a } }

/-- R510: NEG4 is NOT4 followed by adding One through the ripple chain; `b` and `cin` are not read. -/
def Obligations.Neg4IsNot4PlusOne : Prop :=
  ∀ s : State, ∃ t : State,
    exec .add4 (s.drive { s.inp with a := ~~~s.inp.a, b := 0b0000#4, cin := 1#1 }) = .next t
    ∧ exec .neg4 s = .next { s with out := t.out }
    ∧ t.out = { Outputs.zero s.cfg.fmt with r := t.out.r, cout := t.out.cout, ovf := t.out.ovf }

/-- R511: the laws of NEG4. -/
def Obligations.Neg4Laws : Prop :=
  ∀ s : State, ∃ t u : State, exec .neg4 s = .next t
    ∧ uval t.out.r = (16 - uval s.inp.a) % 16
    ∧ t.out.r = nib (-sval s.inp.a)
    ∧ (t.out.cout = 1#1 ↔ s.inp.a = 0b0000#4)
    ∧ (t.out.ovf = 1#1 ↔ s.inp.a = 0b1000#4)
    ∧ exec .sub4 (s.drive { s.inp with a := 0b0000#4, b := s.inp.a }) = .next u
    ∧ t.out = u.out

/-! ## fp3_encoder -/

/-- R550: F3ENC's ordered classification, first match wins, with `real(w)` the exact rational number of the word. -/
def Obligations.F3EncClassifiesReals : Prop :=
  ∀ s : State,
    let w := s.inp.f
    let v :=
      if isInf w = true ∧ signBit w = 0#1 then Fp3.posInfinity
      else if isInf w = true ∧ signBit w = 1#1 then .negInfinity
      else if isZero w = true ∧ signBit w = 0#1 then .posZero
      else if isZero w = true ∧ signBit w = 1#1 then .negZero
      else if ¬ isNaN w = true ∧ realOf w = 1 then .posOne
      else if ¬ isNaN w = true ∧ realOf w = -1 then .negOne
      else if ¬ isNaN w = true ∧ realOf w > 1 then .posInfinity
      else if ¬ isNaN w = true ∧ realOf w < -1 then .negInfinity
      else if signBit w = 0#1 then .posNan
      else .negNan
    exec .f3enc s = .next { s with out := { Outputs.zero s.cfg.fmt with z := pattern s.cfg.f3Map v } }

/-- R551's pattern of a native word, from its sign bit and its magnitude bits alone. -/
def Sys2Proof.encoderBitForm (w : NativeWord) : F3 :=
  let m := magBits w
  let low :=
    if m = 0 then 0b00#2
    else if m < oneMag w.fmt then 0b11#2
    else if m = oneMag w.fmt then 0b01#2
    else if m ≤ infMag w.fmt then 0b10#2
    else 0b11#2
  signBit w ++ low

/-- R551: the bit-level form of F3ENC equals R550 on every word, under the default `F3_MAP`.  R551 derives it from R550 with a
fact it marks "from general knowledge, not in source": the order of the magnitude bits is the order of the magnitudes.  The clause
over every map, where the raw pattern is read as the named value it stands for, is the model's reading (notes/assumptions/6.md). -/
def Obligations.F3EncBitLevelForm : Prop :=
  ∀ s : State,
    exec .f3enc s = .next { s with out := { Outputs.zero s.cfg.fmt with
      z := pattern s.cfg.f3Map (named defaultF3Map (encoderBitForm s.inp.f)) } }
    ∧ (s.cfg.f3Map = defaultF3Map →
        exec .f3enc s = .next { s with out := { Outputs.zero s.cfg.fmt with z := encoderBitForm s.inp.f } })

/-- R552: a finite input of magnitude greater than 1 gives the infinity of its sign. -/
def Obligations.F3EncSaturatesLargeInputs : Prop :=
  ∀ s : State, isFinite s.inp.f = true → 1 < |realOf s.inp.f| →
    exec .f3enc s = .next { s with out := { Outputs.zero s.cfg.fmt with
      z := pattern s.cfg.f3Map (if signBit s.inp.f = 1#1 then .negInfinity else .posInfinity) } }

/-- R553: every finite input with 0 < |value| < 1, subnormals included, and every NaN input, goes to the NaN bucket of its
sign. -/
def Obligations.F3EncNaNBuckets : Prop :=
  ∀ s : State,
    (isFinite s.inp.f = true ∧ 0 < |realOf s.inp.f| ∧ |realOf s.inp.f| < 1) ∨ isNaN s.inp.f = true →
    exec .f3enc s = .next { s with out := { Outputs.zero s.cfg.fmt with
      z := pattern s.cfg.f3Map (if signBit s.inp.f = 1#1 then .negNan else .posNan) } }

/-- R555's table: the input words in both formats, and the pattern. -/
def Sys2Proof.encoderCorners : List (BitVec 32 × BitVec 64 × F3) :=
  [ (0x00000000#32, 0x0000000000000000#64, 0b000#3), (0x80000000#32, 0x8000000000000000#64, 0b100#3),
    (0x3F800000#32, 0x3FF0000000000000#64, 0b001#3), (0xBF800000#32, 0xBFF0000000000000#64, 0b101#3),
    (0x7F800000#32, 0x7FF0000000000000#64, 0b010#3), (0xFF800000#32, 0xFFF0000000000000#64, 0b110#3),
    (0x40A00000#32, 0x4014000000000000#64, 0b010#3), (0xC0A00000#32, 0xC014000000000000#64, 0b110#3),
    (0x3E99999A#32, 0x3FD3333333333333#64, 0b011#3), (0xBE99999A#32, 0xBFD3333333333333#64, 0b111#3),
    (0x3F800001#32, 0x3FF0000000000001#64, 0b010#3), (0x3F7FFFFF#32, 0x3FEFFFFFFFFFFFFF#64, 0b011#3) ]
  ++
  [ (0x00000001#32, 0x0000000000000001#64, 0b011#3), (0x80000001#32, 0x8000000000000001#64, 0b111#3),
    (0x7F7FFFFF#32, 0x7FEFFFFFFFFFFFFF#64, 0b010#3), (0xFF7FFFFF#32, 0xFFEFFFFFFFFFFFFF#64, 0b110#3),
    (0x7FC00000#32, 0x7FF8000000000000#64, 0b011#3), (0xFFC00000#32, 0xFFF8000000000000#64, 0b111#3),
    (0x7F800001#32, 0x7FF0000000000001#64, 0b011#3), (0xFFFFFFFF#32, 0xFFFFFFFFFFFFFFFF#64, 0b111#3),
    (0x40000000#32, 0x4000000000000000#64, 0b010#3), (0xC0000000#32, 0xC000000000000000#64, 0b110#3),
    (0x3F000000#32, 0x3FE0000000000000#64, 0b011#3) ]

/-- R555: the corner-case table of F3ENC, in both formats, under the default `F3_MAP`.  The words are those of the rule's table,
which the spec marks "from general knowledge, not in source: the IEEE-754 encodings of these values". -/
def Obligations.F3EncCornerTable : Prop :=
  ∀ s : State, s.cfg.f3Map = defaultF3Map → ∀ row ∈ encoderCorners,
    (∃ t : State, exec .f3enc (s.drive { s.inp with f := .b32 row.1 }) = .next t ∧ t.out.z = row.2.2)
    ∧ (∃ t : State, exec .f3enc (s.drive { s.inp with f := .b64 row.2.1 }) = .next t ∧ t.out.z = row.2.2)

/-! ## fp3_decoder and the pattern table -/

/-- R600 and R601: the default pattern table, both ways, and how its fields read. -/
def Obligations.DefaultPatternTable : Prop :=
  pattern defaultF3Map .posZero = 0b000#3 ∧ pattern defaultF3Map .posOne = 0b001#3
  ∧ pattern defaultF3Map .posInfinity = 0b010#3 ∧ pattern defaultF3Map .posNan = 0b011#3
  ∧ pattern defaultF3Map .negZero = 0b100#3 ∧ pattern defaultF3Map .negOne = 0b101#3
  ∧ pattern defaultF3Map .negInfinity = 0b110#3 ∧ pattern defaultF3Map .negNan = 0b111#3
  ∧ (∀ z : F3, pattern defaultF3Map (named defaultF3Map z) = z)
  ∧ (∀ z : F3, z.extractLsb' 2 1 = 1#1 ↔ named defaultF3Map z ∈ [.negZero, .negOne, .negInfinity, .negNan])
  ∧ (∀ z : F3, z.extractLsb' 1 1 = 1#1 ↔ named defaultF3Map z ∈ [.posInfinity, .posNan, .negInfinity, .negNan])
  ∧ (∀ z : F3, z.extractLsb' 1 1 = 1#1 → (z.extractLsb' 0 1 = 1#1 ↔ named defaultF3Map z ∈ [.posNan, .negNan]))
  ∧ (∀ z : F3, z.extractLsb' 1 1 = 0#1 → (z.extractLsb' 0 1 = 1#1 ↔ named defaultF3Map z ∈ [.posOne, .negOne]))

/-- R608: under every `F3_MAP` that is a bijection each pattern is a constant and each constant a pattern. -/
def Obligations.EveryPatternIsAConstant : Prop :=
  ∀ m : F3Map, m.wf = true → (∀ v : Fp3, named m (pattern m v) = v) ∧ ∀ z : F3, pattern m (named m z) = z

/-- R604's table: the pattern and the words in both formats, with the default `NAN_PAYLOAD` of R602. -/
def Sys2Proof.decoderTable : List (F3 × BitVec 32 × BitVec 64) :=
  [ (0b000#3, 0x00000000#32, 0x0000000000000000#64), (0b001#3, 0x3F800000#32, 0x3FF0000000000000#64),
    (0b010#3, 0x7F800000#32, 0x7FF0000000000000#64), (0b011#3, 0x7FC00000#32, 0x7FF8000000000000#64),
    (0b100#3, 0x80000000#32, 0x8000000000000000#64), (0b101#3, 0xBF800000#32, 0xBFF0000000000000#64),
    (0b110#3, 0xFF800000#32, 0xFFF0000000000000#64), (0b111#3, 0xFFC00000#32, 0xFFF8000000000000#64) ]

/-- R603 and R604: F3DEC, every pattern, in both formats, with the default `F3_MAP` and `NAN_PAYLOAD`.  The words are those of
R604's table, which the spec marks "from general knowledge, not in source: the IEEE-754 words of these values". -/
def Obligations.F3DecNativeTable : Prop :=
  ∀ s : State, ∀ row ∈ decoderTable, s.inp.p = row.1 →
    (s.cfg = defaultConfig .binary32 →
      exec .f3dec s = .next { s with out := { Outputs.zero .binary32 with fo := .b32 row.2.1 } })
    ∧ (s.cfg = defaultConfig .binary64 →
      exec .f3dec s = .next { s with out := { Outputs.zero .binary64 with fo := .b64 row.2.2 } })

/-- F3DEC in every configuration R6 allows: the word has the block's format and the value's sign; ±0 and ±1 decode to their
exact value, ±∞ to an infinity, and the NaN patterns to a NaN (R603, R602). -/
def Obligations.F3DecExactValues : Prop :=
  ∀ s : State, s.wf = true →
    let v := named s.cfg.f3Map s.inp.p
    ∃ w : NativeWord, exec .f3dec s = .next { s with out := { Outputs.zero s.cfg.fmt with fo := w } }
      ∧ w.fmt = s.cfg.fmt ∧ signBit w = fp3Sign v
      ∧ (v = .posZero ∨ v = .negZero → isFinite w = true ∧ realOf w = 0)
      ∧ (v = .posOne → isFinite w = true ∧ realOf w = 1)
      ∧ (v = .negOne → isFinite w = true ∧ realOf w = -1)
      ∧ (v = .posInfinity ∨ v = .negInfinity → isInf w = true)
      ∧ (v = .posNan ∨ v = .negNan → isNaN w = true)

/-- R606: F3ENC of F3DEC(p) gives back p, for every pattern, the two NaN patterns among them. -/
def Obligations.PatternRoundTrip : Prop :=
  ∀ s : State, s.wf = true → ∃ t u : State, exec .f3dec s = .next t
    ∧ exec .f3enc (t.drive { t.inp with f := t.out.fo }) = .next u ∧ u.out.z = s.inp.p

/-- R607: F3ENC of the representative of w's bucket gives F3ENC(w) back, so F3ROUND is idempotent. -/
def Obligations.RoundingIsIdempotent : Prop :=
  ∀ s : State, s.wf = true → ∃ t u v x : State, exec .f3enc s = .next t
    ∧ exec .f3dec (t.drive { t.inp with p := t.out.z }) = .next u
    ∧ exec .f3enc (u.drive { u.inp with f := u.out.fo }) = .next v
    ∧ u.out.fo = native s.cfg.native (bucket s.inp.f)
    ∧ v.out.z = t.out.z
    ∧ exec .f3dec (v.drive { v.inp with p := v.out.z }) = .next x
    ∧ x.out.fo = u.out.fo

/-! ## fp3 operations -/

/-- R650: under the default map F3NEG flips `p[2]` alone, of NaNs too, with no draw; applied twice it gives back `p`.  R650 writes
the raw pattern only.  That F3NEG gives the value with the other sign under every map is the model's reading
(notes/assumptions/6.md). -/
def Obligations.F3NegFlipsTheSign : Prop :=
  ∀ s : State,
    exec .f3neg s = .next { s with out := { Outputs.zero s.cfg.fmt with
      z := pattern s.cfg.f3Map (match named s.cfg.f3Map s.inp.p with
        | .posZero => .negZero | .posOne => .negOne | .posInfinity => .negInfinity | .posNan => .negNan
        | .negZero => .posZero | .negOne => .posOne | .negInfinity => .posInfinity | .negNan => .posNan) } }
    ∧ (s.cfg.f3Map = defaultF3Map →
        exec .f3neg s = .next { s with out := { Outputs.zero s.cfg.fmt with
          z := ~~~(s.inp.p.extractLsb' 2 1) ++ s.inp.p.extractLsb' 1 1 ++ s.inp.p.extractLsb' 0 1 } })
    ∧ (s.wf = true → ∃ t u : State, exec .f3neg s = .next t
        ∧ exec .f3neg (t.drive { t.inp with p := t.out.z }) = .next u ∧ u.out.z = s.inp.p)

/-- Native `==` on words: no NaN is equal to anything, infinities are equal with equal signs, finite words by value. -/
def Sys2Proof.nativeEqual (x y : NativeWord) : Prop :=
  (isInf x = true ∧ isInf y = true ∧ signBit x = signBit y)
  ∨ (isFinite x = true ∧ isFinite y = true ∧ realOf x = realOf y)

/-- R655: F3EQ drives `eq` alone; under the default map it is the rule's bit formula, and in every configuration it is native
`==` on the decoded values. -/
def Obligations.F3EqIsNativeEquality : Prop :=
  ∀ s : State,
    (s.cfg.f3Map = defaultF3Map →
      let nanp := s.inp.p.extractLsb' 0 2 = 0b11#2
      let nanq := s.inp.q.extractLsb' 0 2 = 0b11#2
      let zp := s.inp.p.extractLsb' 0 2 = 0b00#2
      let zq := s.inp.q.extractLsb' 0 2 = 0b00#2
      exec .f3eq s = .next { s with out := { Outputs.zero s.cfg.fmt with
        eq := if (¬ nanp ∧ ¬ nanq ∧ s.inp.p = s.inp.q) ∨ (zp ∧ zq) then 1#1 else 0#1 } })
    ∧ (s.wf = true → ∃ e : Bit,
        exec .f3eq s = .next { s with out := { Outputs.zero s.cfg.fmt with eq := e } }
        ∧ (e = 1#1 ↔ nativeEqual (native s.cfg.native (named s.cfg.f3Map s.inp.p))
                       (native s.cfg.native (named s.cfg.f3Map s.inp.q))))

/-- The order of the columns and rows of the result tables of R661 to R665: the patterns 000 to 111. -/
def Sys2Proof.tableIndex : Fp3 → Nat
  | .posZero => 0 | .posOne => 1 | .posInfinity => 2 | .posNan => 3
  | .negZero => 4 | .negOne => 5 | .negInfinity => 6 | .negNan => 7

/-- An entry of a result table; `none` is `NaN*`. -/
def Sys2Proof.tableEntry (table : List (List (Option Fp3))) (v u : Fp3) : Option Fp3 :=
  ((table[tableIndex v]?.getD [])[tableIndex u]?).getD none

/-- The next state of a fp3 arithmetic operation whose table entry is given: `z` is the entry's pattern, or, for `NaN*`, the NaN
bucket of the drawn sign, one draw having been taken (R660, R680).  The sign as `Config.nanSign` of the counter, and the counter's
move by one, are the model's own (notes/assumptions/8.md, 9.md). -/
def Sys2Proof.fp3Next (s : State) : Option Fp3 → State
  | some v => { s with out := { Outputs.zero s.cfg.fmt with z := pattern s.cfg.f3Map v } }
  | none => { s with
      out := { Outputs.zero s.cfg.fmt with
        z := pattern s.cfg.f3Map (if Config.nanSign s.draws = 1#1 then .negNan else .posNan) }
      draws := s.draws + 1 }

/-- R661's result table. -/
def Sys2Proof.addTable : List (List (Option Fp3)) :=
  let P0 := some Fp3.posZero; let P1 := some Fp3.posOne; let PI := some Fp3.posInfinity
  let N0 := some Fp3.negZero; let N1 := some Fp3.negOne; let NI := some Fp3.negInfinity; let X := none
  [ [P0, P1, PI, X, P0, N1, NI, X], [P1, PI, PI, X, P1, P0, NI, X],
    [PI, PI, PI, X, PI, PI, X, X],  [X, X, X, X, X, X, X, X],
    [P0, P1, PI, X, N0, N1, NI, X], [N1, P0, PI, X, N1, NI, NI, X],
    [NI, NI, X, X, NI, NI, NI, X],  [X, X, X, X, X, X, X, X] ]

/-- R662's result table. -/
def Sys2Proof.subTable : List (List (Option Fp3)) :=
  let P0 := some Fp3.posZero; let P1 := some Fp3.posOne; let PI := some Fp3.posInfinity
  let N0 := some Fp3.negZero; let N1 := some Fp3.negOne; let NI := some Fp3.negInfinity; let X := none
  [ [P0, N1, NI, X, P0, P1, PI, X], [P1, P0, NI, X, P1, PI, PI, X],
    [PI, PI, X, X, PI, PI, PI, X],  [X, X, X, X, X, X, X, X],
    [N0, N1, NI, X, P0, P1, PI, X], [N1, NI, NI, X, N1, P0, PI, X],
    [NI, NI, NI, X, NI, NI, X, X],  [X, X, X, X, X, X, X, X] ]

/-- R663's result table. -/
def Sys2Proof.mulTable : List (List (Option Fp3)) :=
  let P0 := some Fp3.posZero; let P1 := some Fp3.posOne; let PI := some Fp3.posInfinity
  let N0 := some Fp3.negZero; let N1 := some Fp3.negOne; let NI := some Fp3.negInfinity; let X := none
  [ [P0, P0, X, X, N0, N0, X, X],   [P0, P1, PI, X, N0, N1, NI, X],
    [X, PI, PI, X, X, NI, NI, X],   [X, X, X, X, X, X, X, X],
    [N0, N0, X, X, P0, P0, X, X],   [N0, N1, NI, X, P0, P1, PI, X],
    [X, NI, NI, X, X, PI, PI, X],   [X, X, X, X, X, X, X, X] ]

/-- R664's result table. -/
def Sys2Proof.divTable : List (List (Option Fp3)) :=
  let P0 := some Fp3.posZero; let P1 := some Fp3.posOne; let PI := some Fp3.posInfinity
  let N0 := some Fp3.negZero; let N1 := some Fp3.negOne; let NI := some Fp3.negInfinity; let X := none
  [ [X, P0, P0, X, X, N0, N0, X],   [PI, P1, P0, X, NI, N1, N0, X],
    [PI, PI, X, X, NI, NI, X, X],   [X, X, X, X, X, X, X, X],
    [X, N0, N0, X, X, P0, P0, X],   [NI, N1, N0, X, PI, P1, P0, X],
    [NI, NI, X, X, PI, PI, X, X],   [X, X, X, X, X, X, X, X] ]

/-- R665's result table. -/
def Sys2Proof.remTable : List (List (Option Fp3)) :=
  let P0 := some Fp3.posZero; let P1 := some Fp3.posOne
  let N0 := some Fp3.negZero; let N1 := some Fp3.negOne; let X := none
  [ [X, P0, P0, X, X, P0, P0, X],   [X, P0, P1, X, X, P0, P1, X],
    [X, X, X, X, X, X, X, X],       [X, X, X, X, X, X, X, X],
    [X, N0, N0, X, X, N0, N0, X],   [X, N0, N1, X, X, N0, N1, X],
    [X, X, X, X, X, X, X, X],       [X, X, X, X, X, X, X, X] ]

/-- R661: F3ADD, the whole result table, in every configuration R6 allows.
The table rests on R666, whose signed-zero, infinity and invalid-operation results the spec marks "from general knowledge, not in
source" (notes/assumptions/10.md).  Maps other than the default are read by named value (notes/assumptions/6.md), and the drawn
sign and the counter in `fp3Next` are the model's own (notes/assumptions/8.md, 9.md). -/
def Obligations.F3AddResultTable : Prop :=
  ∀ s : State, s.wf = true →
    exec .f3add s = .next (fp3Next s (tableEntry addTable (named s.cfg.f3Map s.inp.p) (named s.cfg.f3Map s.inp.q)))

/-- R662: F3SUB, the whole result table, in every configuration R6 allows.
The table rests on R666, whose signed-zero, infinity and invalid-operation results the spec marks "from general knowledge, not in
source" (notes/assumptions/10.md).  Maps other than the default are read by named value (notes/assumptions/6.md), and the drawn
sign and the counter in `fp3Next` are the model's own (notes/assumptions/8.md, 9.md). -/
def Obligations.F3SubResultTable : Prop :=
  ∀ s : State, s.wf = true →
    exec .f3sub s = .next (fp3Next s (tableEntry subTable (named s.cfg.f3Map s.inp.p) (named s.cfg.f3Map s.inp.q)))

/-- R663: F3MUL, the whole result table, in every configuration R6 allows.
The table rests on R666, whose signed-zero, infinity and invalid-operation results the spec marks "from general knowledge, not in
source" (notes/assumptions/10.md).  Maps other than the default are read by named value (notes/assumptions/6.md), and the drawn
sign and the counter in `fp3Next` are the model's own (notes/assumptions/8.md, 9.md). -/
def Obligations.F3MulResultTable : Prop :=
  ∀ s : State, s.wf = true →
    exec .f3mul s = .next (fp3Next s (tableEntry mulTable (named s.cfg.f3Map s.inp.p) (named s.cfg.f3Map s.inp.q)))

/-- R664: F3DIV, the whole result table, in every configuration R6 allows; division by zero is no fault.
The table rests on R666, whose signed-zero, infinity and invalid-operation results the spec marks "from general knowledge, not in
source" (notes/assumptions/10.md).  Maps other than the default are read by named value (notes/assumptions/6.md), and the drawn
sign and the counter in `fp3Next` are the model's own (notes/assumptions/8.md, 9.md). -/
def Obligations.F3DivResultTable : Prop :=
  ∀ s : State, s.wf = true →
    exec .f3div s = .next (fp3Next s (tableEntry divTable (named s.cfg.f3Map s.inp.p) (named s.cfg.f3Map s.inp.q)))

/-- R665: F3REM, the whole result table, in every configuration R6 allows.
The table rests on R666, whose signed-zero, infinity and invalid-operation results the spec marks "from general knowledge, not in
source" (notes/assumptions/10.md).  Maps other than the default are read by named value (notes/assumptions/6.md), and the drawn
sign and the counter in `fp3Next` are the model's own (notes/assumptions/8.md, 9.md). -/
def Obligations.F3RemResultTable : Prop :=
  ∀ s : State, s.wf = true →
    exec .f3rem s = .next (fp3Next s (tableEntry remTable (named s.cfg.f3Map s.inp.p) (named s.cfg.f3Map s.inp.q)))

/-- The operands on which an operation of R660 gives a NaN (R680): a NaN operand, ∞ − ∞, 0 × ∞, 0 ÷ 0, ∞ ÷ ∞, x rem 0,
∞ rem y. -/
def Sys2Proof.givesNaN (i : Instr) (v u : Fp3) : Prop :=
  let nan := fun (x : Fp3) => x = .posNan ∨ x = .negNan
  let inf := fun (x : Fp3) => x = .posInfinity ∨ x = .negInfinity
  let zero := fun (x : Fp3) => x = .posZero ∨ x = .negZero
  nan v ∨ nan u
  ∨ (i = .f3add ∧ inf v ∧ inf u ∧ v ≠ u)
  ∨ (i = .f3sub ∧ inf v ∧ inf u ∧ v = u)
  ∨ (i = .f3mul ∧ ((zero v ∧ inf u) ∨ (inf v ∧ zero u)))
  ∨ (i = .f3div ∧ ((zero v ∧ zero u) ∨ (inf v ∧ inf u)))
  ∨ (i = .f3rem ∧ (zero u ∨ inf v))

/-- R680: exactly when the native result is a NaN, one draw is taken and `z` is the NaN bucket of the drawn sign; otherwise no
draw is taken and `z` is no NaN bucket.  The clauses on `draws`, and the sign as `Config.nanSign` of it, are how the model says
that a draw is fresh (notes/assumptions/8.md, 9.md), which R680 states without a counter. -/
def Obligations.NaNSignIsDrawnFresh : Prop :=
  ∀ (i : Instr) (s : State), drawsNaNSign i = true → s.wf = true →
    let v := named s.cfg.f3Map s.inp.p
    let u := named s.cfg.f3Map s.inp.q
    ∃ t : State, exec i s = .next t
      ∧ (givesNaN i v u → t.draws = s.draws + 1
          ∧ t.out.z = pattern s.cfg.f3Map (if Config.nanSign s.draws = 1#1 then .negNan else .posNan)
          ∧ (s.cfg.f3Map = defaultF3Map → t.out.z = Config.nanSign s.draws ++ 0b11#2))
      ∧ (¬ givesNaN i v u → t.draws = s.draws ∧ named s.cfg.f3Map t.out.z ≠ .posNan
          ∧ named s.cfg.f3Map t.out.z ≠ .negNan)

/-- `trunc(q)` of R665: the integer part of a rational number, toward zero. -/
def Sys2Proof.truncQ (q : ℚ) : ℤ := if q < 0 then ⌈q⌉ else ⌊q⌋

/-- R666: on the operands F3DEC can produce, every non-NaN native result is exact.  It is a word of the block's format and one of
±0, ±1, ±2 and the infinities; on finite operands it is finite and is the exact sum, difference, product, quotient or truncated
remainder (R665) of the real numbers; a finite number over an infinity is 0 and its remainder is the number itself; and an
infinity comes only from an infinite operand or a division by zero.

The native unit is the model's, IEEE-754 as R666 assumes it (PRESUMED, notes/assumptions/10.md); the spec marks these results and
their exactness as general knowledge (G7 of 93_implementation_defined.md). -/
def Obligations.NativeResultsAreExact : Prop :=
  ∀ (n : NativeConfig) (v u : Fp3) (w : NativeWord), n.wf = true →
    let x := native n v
    let y := native n u
    let add := nativeAdd x y = .number w
    let sub := nativeSub x y = .number w
    let mul := nativeMul x y = .number w
    let div := nativeDiv x y = .number w
    let rem := nativeRem x y = .number w
    (add ∨ sub ∨ mul ∨ div ∨ rem →
      w.fmt = n.fmt
      ∧ (isInf w = true ∨ (isFinite w = true ∧ (realOf w = 0 ∨ |realOf w| = 1 ∨ |realOf w| = 2))))
    ∧ (isFinite x = true → isFinite y = true →
      (add → isFinite w = true ∧ realOf w = realOf x + realOf y)
      ∧ (sub → isFinite w = true ∧ realOf w = realOf x - realOf y)
      ∧ (mul → isFinite w = true ∧ realOf w = realOf x * realOf y)
      ∧ (div → realOf y ≠ 0 → isFinite w = true ∧ realOf w = realOf x / realOf y)
      ∧ (div → realOf y = 0 → isInf w = true)
      ∧ (rem → isFinite w = true ∧ realOf y ≠ 0 ∧ realOf w = realOf x - realOf y * truncQ (realOf x / realOf y)))
    ∧ (isFinite x = true → isInf y = true →
      (div → isFinite w = true ∧ realOf w = 0) ∧ (rem → isFinite w = true ∧ realOf w = realOf x))
    ∧ (isInf x = true ∨ isInf y = true → add ∨ sub ∨ mul → isInf w = true)
    ∧ (isInf x = true → div → isInf w = true)

/-- R670 and R671: the constants; no input is read.  Under the default map their patterns are 001 and 000.  F3MUL with F3ONE's
pattern gives back every non-NaN `p`; F3ADD with F3ZERO's pattern gives back every non-NaN `p` but NEG_ZERO, which it sends to
POS_ZERO.  That `zero()` is POS_ZERO is the spec's own reading (D19), stated as R671 states it; under maps other than the default
the patterns are read by named value (notes/assumptions/6.md). -/
def Obligations.Fp3ConstantsAreIdentities : Prop :=
  ∀ s : State,
    exec .f3one s = .next { s with out := { Outputs.zero s.cfg.fmt with z := pattern s.cfg.f3Map .posOne } }
    ∧ exec .f3zero s = .next { s with out := { Outputs.zero s.cfg.fmt with z := pattern s.cfg.f3Map .posZero } }
    ∧ (s.cfg.f3Map = defaultF3Map →
        exec .f3one s = .next { s with out := { Outputs.zero s.cfg.fmt with z := 0b001#3 } }
        ∧ exec .f3zero s = .next { s with out := { Outputs.zero s.cfg.fmt with z := 0b000#3 } })
    ∧ (s.wf = true → named s.cfg.f3Map s.inp.p ≠ .posNan → named s.cfg.f3Map s.inp.p ≠ .negNan →
        ∃ one zero t u : State, exec .f3one s = .next one ∧ exec .f3zero s = .next zero
          ∧ exec .f3mul (s.drive { s.inp with q := one.out.z }) = .next t ∧ t.out.z = s.inp.p
          ∧ exec .f3add (s.drive { s.inp with q := zero.out.z }) = .next u
          ∧ (named s.cfg.f3Map s.inp.p ≠ .negZero → u.out.z = s.inp.p)
          ∧ (named s.cfg.f3Map s.inp.p = .negZero → named s.cfg.f3Map u.out.z = .posZero))

/-! ## The host's side -/

/-- R311: the pseudo-operations expand into evaluations and give the results of the rule. -/
def Obligations.PseudoOperationResults : Prop :=
  ∀ (s : State) (x y : Nibble) (c : Bit) (w : NativeWord),
    (∃ o : Outputs, programResults s (inc4 (.lit x)) = .ok [o] ∧ o.r = nib (uval x + 1))
    ∧ (∃ o : Outputs, programResults s (dec4 (.lit x)) = .ok [o] ∧ o.r = nib (uval x + 15))
    ∧ (∃ o o' : Outputs, programResults s (sbc4 0 (.lit x) (.lit y) (.lit c)) = .ok [o, o']
        ∧ o.r = ~~~y ∧ o'.r = nib ((uval x : Int) - uval y - 1 + c.toNat)
        ∧ (o'.cout = 1#1 ↔ uval x + c.toNat ≥ uval y + 1))
    ∧ (∃ o o' : Outputs, programResults s (bnor 0 (.lit x) (.lit y)) = .ok [o, o']
        ∧ o'.r = 0b000#3 ++ ~~~(x.extractLsb' 0 1 ||| y.extractLsb' 0 1))
    ∧ (s.wf = true → ∃ o o' : Outputs, programResults s (f3round 0 (.lit w)) = .ok [o, o']
        ∧ o.z = pattern s.cfg.f3Map (bucket w) ∧ o'.fo = native s.cfg.native (bucket w))

/-- A program whose operands name only evaluations issued before them runs to its end from every state: every evaluation of it
has its outputs (R310, R111, D29). -/
def Obligations.WellFormedProgramsRun : Prop :=
  ∀ (s : State) (prog : Program), programWf s.cfg.fmt 0 prog = true →
    ∃ results : List Outputs, programResults s prog = .ok results ∧ results.length = prog.length

/-- R132 and R133: an integer in [-8, 7] becomes the nibble whose signed value it is, any other integer is refused, and every
nibble is reached. -/
def Obligations.NibbleConversionRoundTrip : Prop :=
  (∀ k : Int, -8 ≤ k → k ≤ 7 → ∃ n : Nibble, nibbleOfInt k = .ok n ∧ nibbleToInt n = k)
  ∧ (∀ k : Int, k < -8 ∨ 7 < k → nibbleOfInt k = .error (.integerOutsideNibble k))
  ∧ ∀ n : Nibble, nibbleOfInt (nibbleToInt n) = .ok n

/-- R130 and R131: Bits from booleans and integers, and back. -/
def Obligations.BitConversions : Prop :=
  bitOfBool true = 1#1 ∧ bitOfBool false = 0#1
  ∧ (∀ k : Int, bitOfInt k = if k ≠ 0 then 1#1 else 0#1)
  ∧ bitToInt 0#1 = 0 ∧ bitToInt 1#1 = 1 ∧ bitToBool 0#1 = false ∧ bitToBool 1#1 = true

/-- R8 and R10: the document's index `i` is port bit `3 - i`, `sval` is the two's-complement reading by document index, in
[-8, 7], and `nib` inverts it there; `uval(nib(k)) = k mod 16` for every integer. -/
def Obligations.NibbleReadings : Prop :=
  (∀ n : Nibble, sval n = -8 * ((documentBit n 0).toNat : Int) + 4 * ((documentBit n 1).toNat : Int)
      + 2 * ((documentBit n 2).toNat : Int) + ((documentBit n 3).toNat : Int) ∧ -8 ≤ sval n ∧ sval n ≤ 7)
  ∧ (∀ n : Nibble, uval n = n.toNat)
  ∧ (∀ k : Int, (uval (nib k) : Int) = k % 16)
  ∧ ∀ k : Int, -8 ≤ k → k ≤ 7 → sval (nib k) = k
end

