-- ==== Sys2Proof/Laws/Adder.lean ====
section
/-!
SUPPORT. What the ripple chain computes, read as integers (R452, R453, R456).
-/

namespace Sys2Proof.Machine

theorem uval_eq_toNat : ∀ n : Nibble, uval n = n.toNat := by decide

theorem sval_eq_toInt : ∀ n : Nibble, sval n = n.toInt := by decide

theorem uval_lt (n : Nibble) : uval n < 16 := by rw [uval_eq_toNat]; exact n.isLt

theorem uval_not : ∀ n : Nibble, uval (~~~n) = 15 - uval n := by decide

theorem sval_bounds : ∀ n : Nibble, -8 ≤ sval n ∧ sval n ≤ 7 := by decide

/-- The full adder counts its inputs (R410). -/
theorem fullAdder_count : ∀ x y c : Bit, x.toNat + y.toNat + c.toNat = 2 * (fullAdder x y c).2.toNat + (fullAdder x y c).1.toNat := by
  decide

/-- The chain adds: the sum with the carry out as a fifth bit (R452). -/
theorem rippleAdd_unsigned :
    ∀ (x y : Nibble) (c : Bit), uval (rippleAdd x y c).sum + 16 * (rippleAdd x y c).c4.toNat = uval x + uval y + c.toNat := by
  decide

/-- The signed reading of the chain's sum: off by 16 exactly when the overflow output is 1 (R453, R456). -/
theorem rippleAdd_signed :
    ∀ (x y : Nibble) (c : Bit),
      (overflow (rippleAdd x y c) = 1#1 ↔ sval x + sval y + c.toNat < -8 ∨ 7 < sval x + sval y + c.toNat)
      ∧ (rippleAdd x y c).sum = nib (sval x + sval y + c.toNat) := by
  decide

end Sys2Proof.Machine
end

