-- ==== Sys2Proof/Laws/Fp3.lean ====
section
/-!
SUPPORT. The pattern table under an `F3_MAP` that is a bijection: names and patterns invert each other (R600, R608).
-/

namespace Sys2Proof.Machine

/-- Reading a pattern back gives the named value it stands for. -/
theorem named_pattern {m : F3Map} (h : m.wf = true) (v : Fp3) : named m (pattern m v) = v := by
  simp only [F3Map.wf, F3Map.patterns, decide_eq_true_eq, List.nodup_cons, List.mem_cons, List.not_mem_nil, or_false,
    not_or] at h
  cases v <;> simp [named, pattern, h, Ne.symm]

theorem pattern_injective {m : F3Map} (h : m.wf = true) : Function.Injective (pattern m) :=
  fun v u e => by rw [← named_pattern h v, e, named_pattern h u]

/-- Every pattern is a named value's: eight values, eight patterns, none used twice. -/
theorem pattern_surjective {m : F3Map} (h : m.wf = true) : Function.Surjective (pattern m) := by
  have all : ∀ v : Fp3, v ∈ [Fp3.posZero, .posOne, .posInfinity, .posNan, .negZero, .negOne, .negInfinity, .negNan] := by
    intro v; cases v <;> decide
  have nodup : m.patterns.Nodup := by simpa [F3Map.wf] using h
  intro z
  have inj : Function.Injective fun k : Fin 8 => (m.patterns.get (k.cast rfl)).toFin := by
    intro j k e
    have e' := (List.nodup_iff_injective_get.mp nodup) (BitVec.toFin_inj.mp e)
    exact e'
  obtain ⟨k, hk⟩ := Finite.surjective_of_injective inj z.toFin
  have hz : m.patterns.get (k.cast rfl) = z := BitVec.toFin_inj.mp hk
  fin_cases k
  exacts [⟨.posZero, hz⟩, ⟨.posOne, hz⟩, ⟨.posInfinity, hz⟩, ⟨.posNan, hz⟩, ⟨.negZero, hz⟩, ⟨.negOne, hz⟩,
    ⟨.negInfinity, hz⟩, ⟨.negNan, hz⟩]

/-- The pattern of the named value of a pattern is that pattern. -/
theorem pattern_named {m : F3Map} (h : m.wf = true) (z : F3) : pattern m (named m z) = z := by
  obtain ⟨v, rfl⟩ := pattern_surjective h z
  rw [named_pattern h]

theorem named_eq_iff {m : F3Map} (h : m.wf = true) {y z : F3} : named m y = named m z ↔ y = z :=
  ⟨fun e => by rw [← pattern_named h y, e, pattern_named h z], fun e => by rw [e]⟩

@[simp] theorem fp3Negate_negate (v : Fp3) : fp3Negate (fp3Negate v) = v := by cases v <;> rfl

/-- The default map is a bijection. -/
theorem defaultF3Map_wf : defaultF3Map.wf = true := by decide

/-- The default configuration is well-formed in both formats. -/
theorem defaultConfig_wf (fmt : NativeFmt) : (defaultConfig fmt).wf = true := by cases fmt <;> decide

end Sys2Proof.Machine
end

