-- ==== Sys2Proof/Laws/State.lean ====
section
/-!
SUPPORT. What each update of the state leaves in each field: one lemma per field per update, true by rfl.
-/

namespace Sys2Proof.Machine

@[simp] theorem drive_cfg (s : State) (x : Inputs) : (s.drive x).cfg = s.cfg := rfl
@[simp] theorem drive_inp (s : State) (x : Inputs) : (s.drive x).inp = x := rfl
@[simp] theorem drive_out (s : State) (x : Inputs) : (s.drive x).out = s.out := rfl
@[simp] theorem drive_draws (s : State) (x : Inputs) : (s.drive x).draws = s.draws := rfl

@[simp] theorem drawn_cfg (s : State) : s.drawn.cfg = s.cfg := rfl
@[simp] theorem drawn_inp (s : State) : s.drawn.inp = s.inp := rfl
@[simp] theorem drawn_out (s : State) : s.drawn.out = s.out := rfl
@[simp] theorem drawn_draws (s : State) : s.drawn.draws = s.draws + 1 := rfl

@[simp] theorem raiseErr_cfg (s : State) : (raiseErr s).cfg = s.cfg := rfl
@[simp] theorem raiseErr_inp (s : State) : (raiseErr s).inp = s.inp := rfl
@[simp] theorem raiseErr_out (s : State) : (raiseErr s).out = { Outputs.zero s.cfg.fmt with err := 1#1 } := rfl
@[simp] theorem raiseErr_draws (s : State) : (raiseErr s).draws = s.draws := rfl

@[simp] theorem withFetchWord_cfg (s : State) (nbits w : Nat) : (s.withFetchWord nbits w).cfg = s.cfg := rfl
@[simp] theorem withFetchWord_op (s : State) (nbits w : Nat) :
    (s.withFetchWord nbits w).inp.op = opOfTableWord nbits w := rfl
@[simp] theorem withFetchWord_a (s : State) (nbits w : Nat) : (s.withFetchWord nbits w).inp.a = s.inp.a := rfl
@[simp] theorem withFetchWord_b (s : State) (nbits w : Nat) : (s.withFetchWord nbits w).inp.b = s.inp.b := rfl
@[simp] theorem withFetchWord_cin (s : State) (nbits w : Nat) : (s.withFetchWord nbits w).inp.cin = s.inp.cin := rfl
@[simp] theorem withFetchWord_p (s : State) (nbits w : Nat) : (s.withFetchWord nbits w).inp.p = s.inp.p := rfl
@[simp] theorem withFetchWord_q (s : State) (nbits w : Nat) : (s.withFetchWord nbits w).inp.q = s.inp.q := rfl
@[simp] theorem withFetchWord_f (s : State) (nbits w : Nat) : (s.withFetchWord nbits w).inp.f = s.inp.f := rfl
@[simp] theorem withFetchWord_out (s : State) (nbits w : Nat) : (s.withFetchWord nbits w).out = s.out := rfl
@[simp] theorem withFetchWord_draws (s : State) (nbits w : Nat) : (s.withFetchWord nbits w).draws = s.draws := rfl

@[simp] theorem undriven_eq (s : State) : undriven s = Outputs.zero s.cfg.fmt := rfl

@[simp] theorem zero_r (fmt : NativeFmt) : (Outputs.zero fmt).r = 0#4 := rfl
@[simp] theorem zero_cout (fmt : NativeFmt) : (Outputs.zero fmt).cout = 0#1 := rfl
@[simp] theorem zero_ovf (fmt : NativeFmt) : (Outputs.zero fmt).ovf = 0#1 := rfl
@[simp] theorem zero_z (fmt : NativeFmt) : (Outputs.zero fmt).z = 0#3 := rfl
@[simp] theorem zero_fo (fmt : NativeFmt) : (Outputs.zero fmt).fo = NativeWord.ofBits fmt 0 := rfl
@[simp] theorem zero_eq (fmt : NativeFmt) : (Outputs.zero fmt).eq = 0#1 := rfl
@[simp] theorem zero_err (fmt : NativeFmt) : (Outputs.zero fmt).err = 0#1 := rfl

@[simp] theorem ofBits_fmt (fmt : NativeFmt) (n : Nat) : (NativeWord.ofBits fmt n).fmt = fmt := by cases fmt <;> rfl
@[simp] theorem ofBits_zero_bits (fmt : NativeFmt) : (NativeWord.ofBits fmt 0).bits = 0 := by cases fmt <;> rfl

end Sys2Proof.Machine
end

