-- ==== Sys2Proof/Laws/Ops.lean ====
section
/-!
SUPPORT. What the shared operations, `exec` and `step` can do, said once.
-/

namespace Sys2Proof.Machine

@[simp] theorem complete_eq (s : State) (o : Outputs) : complete s o = .next { s with out := o } := rfl

@[simp] theorem completeR_eq (s : State) (r : Nibble) :
    completeR s r = .next { s with out := { Outputs.zero s.cfg.fmt with r := r } } := rfl

@[simp] theorem completeRipple_eq (s : State) (rs : RippleSum) :
    completeRipple s rs
      = .next { s with out := { Outputs.zero s.cfg.fmt with r := rs.sum, cout := carryOut rs, ovf := overflow rs } } := rfl

@[simp] theorem completeZ_eq (s : State) (v : Fp3) :
    completeZ s v = .next { s with out := { Outputs.zero s.cfg.fmt with z := pattern s.cfg.f3Map v } } := rfl

@[simp] theorem completeDrawnNaN_eq (s : State) :
    completeDrawnNaN s = .next { s with
      out := { Outputs.zero s.cfg.fmt with z := pattern s.cfg.f3Map (nanBucket (Config.nanSign s.draws)) }
      draws := s.draws + 1 } := rfl

/-- What an arithmetic operation of R660 can do: drive `z` with a bucket, or take a draw and drive `z` with a NaN bucket. -/
theorem fp3Arith_cases (op : NativeWord → NativeWord → NativeResult) (s : State) :
    (∃ w, op (native s.cfg.native (fp3P s)) (native s.cfg.native (fp3Q s)) = .number w
      ∧ fp3Arith op s = completeZ s (bucket w))
    ∨ (op (native s.cfg.native (fp3P s)) (native s.cfg.native (fp3Q s)) = .nan
      ∧ fp3Arith op s = completeDrawnNaN s) := by
  unfold fp3Arith
  split
  · exact .inr ⟨by assumption, rfl⟩
  · exact .inl ⟨_, by assumption, rfl⟩

/-- Everything an operation can do: complete with outputs computed from the configuration, the inputs and the draw counter
alone (`o` does not depend on the outputs before), and, for the operations of R660, take one draw. -/
theorem exec_cases (i : Instr) (s : State) :
    ∃ o : Outputs, o.err = 0#1 ∧ o.fo.fmt = s.cfg.fmt ∧
      ((∀ o', exec i { s with out := o' } = .next { s with out := o })
       ∨ (drawsNaNSign i = true ∧ ∀ o', exec i { s with out := o' } = .next { s.drawn with out := o })) := by
  have arith : ∀ op, ∃ o : Outputs, o.err = 0#1 ∧ o.fo.fmt = s.cfg.fmt ∧
      ((∀ o', fp3Arith op { s with out := o' } = .next { s with out := o })
       ∨ ∀ o', fp3Arith op { s with out := o' } = .next { s.drawn with out := o }) := by
    intro op
    rcases fp3Arith_cases op s with ⟨w, hw, -⟩ | ⟨hn, -⟩
    · refine ⟨{ Outputs.zero s.cfg.fmt with z := pattern s.cfg.f3Map (bucket w) }, rfl, by simp, .inl fun o' => ?_⟩
      have hw' : op (native s.cfg.native (fp3P { s with out := o' })) (native s.cfg.native (fp3Q { s with out := o' }))
          = .number w := hw
      simp [fp3Arith, hw']
    · refine ⟨{ Outputs.zero s.cfg.fmt with z := pattern s.cfg.f3Map (nanBucket (Config.nanSign s.draws)) }, rfl, by simp,
        .inr fun o' => ?_⟩
      have hn' : op (native s.cfg.native (fp3P { s with out := o' })) (native s.cfg.native (fp3Q { s with out := o' }))
          = .nan := hn
      simp [fp3Arith, hn', State.drawn]
  have native_fmt : ∀ (n : NativeConfig) (v : Fp3), (native n v).fmt = n.fmt := by
    intro n v; cases n <;> cases v <;> rfl
  have plain : drawsNaNSign i = false →
      let o : Outputs := match exec i s with | .next t => t.out | _ => s.out
      o.err = 0#1 ∧ o.fo.fmt = s.cfg.fmt ∧ ∀ o', exec i { s with out := o' } = .next { s with out := o } := by
    intro plainOp
    cases i
    case f3dec => exact ⟨rfl, native_fmt _ _, fun _ => rfl⟩
    case f3add | f3sub | f3mul | f3div | f3rem => cases plainOp
    all_goals exact ⟨rfl, ofBits_fmt _ _, fun _ => rfl⟩
  cases i
  case f3add => obtain ⟨o, he, hf, h⟩ := arith nativeAdd; exact ⟨o, he, hf, h.imp id fun h => ⟨rfl, h⟩⟩
  case f3sub => obtain ⟨o, he, hf, h⟩ := arith nativeSub; exact ⟨o, he, hf, h.imp id fun h => ⟨rfl, h⟩⟩
  case f3mul => obtain ⟨o, he, hf, h⟩ := arith nativeMul; exact ⟨o, he, hf, h.imp id fun h => ⟨rfl, h⟩⟩
  case f3div => obtain ⟨o, he, hf, h⟩ := arith nativeDiv; exact ⟨o, he, hf, h.imp id fun h => ⟨rfl, h⟩⟩
  case f3rem => obtain ⟨o, he, hf, h⟩ := arith nativeRem; exact ⟨o, he, hf, h.imp id fun h => ⟨rfl, h⟩⟩
  all_goals exact ⟨_, (plain rfl).1, (plain rfl).2.1, .inl (plain rfl).2.2⟩

/-- The decoder undoes the encoder. -/
theorem decode_encode (i : Instr) : decode (encode i) = .ok i := by cases i <;> decide

/-- A step whose `op` is the encoding of an operation runs that operation. -/
theorem step_eq {s : State} {i : Instr} (hop : s.inp.op = encode i) : step s = exec i s := by
  simp [step, hop, decode_encode]

/-- An evaluation whose operation completes leaves the completed state. -/
theorem evaluate_eq {s t : State} {i : Instr} (hop : s.inp.op = encode i) (h : exec i s = .next t) : evaluate s = t := by
  simp [evaluate, step_eq hop, h]

/-- The same, on ports. -/
theorem evalPorts_eq {c : Config} {n : Nat} {x : Inputs} {t : State} {i : Instr} (hop : x.op = encode i)
    (h : exec i { cfg := c, inp := x, out := Outputs.zero c.fmt, draws := n } = .next t) : evalPorts c n x = t.out := by
  simp [evalPorts, evaluate_eq (i := i) hop h]

/-- Everything a step can do: run the selected operation, or take the one exception. -/
theorem step_cases (s : State) :
    (∃ i, decode s.inp.op = .ok i ∧ step s = exec i s)
    ∨ (decode s.inp.op = .error (.reservedOp s.inp.op) ∧ step s = .fault (.illegalOp s.inp.op (raiseErr s))) := by
  have dec : ∀ op : OpSel, (∃ i, decode op = .ok i) ∨ decode op = .error (.reservedOp op) := by
    have bits : ∀ op : OpSel, (match decode op with | .ok _ => true | .error e => e == .reservedOp op) = true := by decide
    intro op
    have h := bits op
    revert h
    cases decode op with
    | ok i => exact fun _ => .inl ⟨i, rfl⟩
    | error e => intro h; simp only [beq_iff_eq] at h; exact .inr (by rw [h])
  rcases dec s.inp.op with ⟨i, hi⟩ | he
  · exact .inl ⟨i, hi, by simp [step, hi]⟩
  · exact .inr ⟨he, by simp [step, he, takeIllegalOp]⟩

end Sys2Proof.Machine
end

