-- ==== Sys2Proof/Laws/Native.lean ====
section
/-!
SUPPORT. The native words the decoder drives: their fields, their values, and what the encoder makes of them (R602 to R606).
-/

namespace Sys2Proof.Machine

theorem append3_low {m n k : Nat} (x : BitVec m) (y : BitVec n) (z : BitVec k) : (x ++ y ++ z).extractLsb' 0 k = z := by
  ext i hi
  simp [BitVec.getLsbD_append, hi]

theorem append3_mid {m n k : Nat} (x : BitVec m) (y : BitVec n) (z : BitVec k) : (x ++ y ++ z).extractLsb' k n = y := by
  ext i hi
  simp [BitVec.getLsbD_append, hi]

theorem append3_high {m n k : Nat} (x : BitVec m) (y : BitVec n) (z : BitVec k) :
    (x ++ y ++ z).extractLsb' (k + n) m = x := by
  ext i hi
  simp [BitVec.getLsbD_append, hi, show ¬ (k + n + i < k) by omega, show ¬ (k + n + i - k < n) by omega,
    show k + n + i - k - n = i by omega]

@[simp] theorem native_fmt (n : NativeConfig) (v : Fp3) : (native n v).fmt = n.fmt := by
  cases n <;> cases v <;> rfl

/-- The NaN words have an all-ones exponent, the payload as fraction, and the given sign (R602). -/
theorem nanWord_fields {n : NativeConfig} (h : n.wf = true) (sgn : Bit) :
    isNaN (nanWord n sgn) = true ∧ signBit (nanWord n sgn) = sgn := by
  cases n with
  | binary32 pl =>
    have ne : pl.toNat ≠ 0 := fun z => of_decide_eq_true h (BitVec.eq_of_toNat_eq z)
    have e : expField (nanWord (.binary32 pl) sgn) = 255 := congrArg BitVec.toNat (append3_mid sgn 0xFF#8 pl)
    have f : fracField (nanWord (.binary32 pl) sgn) = pl.toNat := congrArg BitVec.toNat (append3_low sgn 0xFF#8 pl)
    exact ⟨by simp only [isNaN, e, f]; simp [nanWord, emax, NativeWord.fmt, NativeFmt.expBits, ne],
      append3_high sgn 0xFF#8 pl⟩
  | binary64 pl =>
    have ne : pl.toNat ≠ 0 := fun z => of_decide_eq_true h (BitVec.eq_of_toNat_eq z)
    have e : expField (nanWord (.binary64 pl) sgn) = 2047 := congrArg BitVec.toNat (append3_mid sgn 0x7FF#11 pl)
    have f : fracField (nanWord (.binary64 pl) sgn) = pl.toNat := congrArg BitVec.toNat (append3_low sgn 0x7FF#11 pl)
    exact ⟨by simp only [isNaN, e, f]; simp [nanWord, emax, NativeWord.fmt, NativeFmt.expBits, ne],
      append3_high sgn 0x7FF#11 pl⟩

/-- A NaN word is no infinity and no zero. -/
theorem not_inf_zero_of_isNaN : ∀ {w : NativeWord}, isNaN w = true → isInf w = false ∧ isZero w = false := by
  intro w h
  simp only [isNaN, Bool.and_eq_true, beq_iff_eq, bne_iff_ne, ne_eq] at h
  refine ⟨by simp [isInf, h.2], ?_⟩
  simp only [isZero, beq_eq_false_iff_ne, ne_eq]
  intro z
  apply h.2
  cases w with
  | b32 x =>
    simp only [magBits, fracField, BitVec.extractLsb'_toNat, Nat.shiftRight_zero] at z ⊢
    omega
  | b64 x =>
    simp only [magBits, fracField, BitVec.extractLsb'_toNat, Nat.shiftRight_zero] at z ⊢
    omega

/-- The encoder sends a NaN to the bucket of its sign (R553). -/
theorem bucket_of_isNaN {w : NativeWord} (h : isNaN w = true) : bucket w = nanBucket (signBit w) := by
  obtain ⟨hi, hz⟩ := not_inf_zero_of_isNaN h
  have s01 : signBit w = 0#1 ∨ signBit w = 1#1 := by
    generalize signBit w = x; revert x; decide
  rcases s01 with s | s <;> simp [bucket, h, hi, hz, s, nanBucket]

/-- What the decoder drives, the encoder sends back (R606), in every configuration whose payload is a NaN's. -/
theorem bucket_native {n : NativeConfig} (h : n.wf = true) (v : Fp3) : bucket (native n v) = v := by
  have nan : ∀ sgn, bucket (nanWord n sgn) = nanBucket sgn := fun sgn => by
    rw [bucket_of_isNaN (nanWord_fields h sgn).1, (nanWord_fields h sgn).2]
  cases n <;> cases v
  case binary32.posNan | binary64.posNan => exact nan 0#1
  case binary32.negNan | binary64.negNan => exact nan 1#1
  all_goals (simp only [native]; decide +kernel)

/-- The value of each word the decoder drives. -/
def decodedValue (fmt : NativeFmt) : Fp3 → NativeValue
  | .posZero     => .finite 0#1 0
  | .posOne      => .finite 0#1 (scale fmt)
  | .posInfinity => .infinite 0#1
  | .posNan      => .nan
  | .negZero     => .finite 1#1 0
  | .negOne      => .finite 1#1 (scale fmt)
  | .negInfinity => .infinite 1#1
  | .negNan      => .nan

theorem nativeValue_native {n : NativeConfig} (h : n.wf = true) (v : Fp3) :
    nativeValue (native n v) = decodedValue n.fmt v := by
  have nan : ∀ sgn, nativeValue (nanWord n sgn) = .nan := fun sgn => by
    simp [nativeValue, (nanWord_fields h sgn).1]
  cases n <;> cases v
  case binary32.posNan | binary64.posNan => exact nan 0#1
  case binary32.negNan | binary64.negNan => exact nan 1#1
  all_goals (simp only [native, NativeConfig.fmt]; decide +kernel)

end Sys2Proof.Machine
end

