-- ==== Sys2Proof/Laws/NativeReal.lean ====
section
/-!
SUPPORT. The scaled integers the model computes with, against the real numbers of R12 and the magnitude bits of R551.
-/

namespace Sys2Proof.Machine

theorem signBit_cases (w : NativeWord) : signBit w = 0#1 ∨ signBit w = 1#1 := by
  generalize signBit w = x
  revert x
  decide

theorem scale_pos (fmt : NativeFmt) : (0 : ℚ) < scale fmt := by simp [scale]

/-- `scaledReal` is `real(w)` times `scale`. -/
theorem realOf_eq_scaled (w : NativeWord) : realOf w = (scaledReal w : ℚ) / (scale w.fmt : ℚ) := by
  have mag : (if expField w = 0 then (fracField w : ℚ) / 2 ^ w.fmt.fracBits * 2 ^ ((1 : ℤ) - (bias w.fmt : ℤ))
      else (1 + (fracField w : ℚ) / 2 ^ w.fmt.fracBits) * 2 ^ ((expField w : ℤ) - (bias w.fmt : ℤ)))
      = (scaledMag w : ℚ) / (scale w.fmt : ℚ) := by
    have hb : 1 ≤ bias w.fmt + w.fmt.fracBits := by cases w.fmt <;> decide
    have hs : (scale w.fmt : ℚ) = 2 ^ ((bias w.fmt : ℤ) + w.fmt.fracBits - 1) := by
      simp only [scale]
      push_cast
      rw [← zpow_natCast]
      congr 1
      push_cast [Nat.cast_sub hb]
      ring
    rw [hs]
    unfold scaledMag
    generalize w.fmt.fracBits = fb, bias w.fmt = B at *
    have two : (2 : ℚ) ≠ 0 := by norm_num
    by_cases h : expField w = 0
    · simp only [h, if_true]
      rw [div_mul_eq_mul_div, div_eq_div_iff (by positivity) (by positivity), mul_assoc, ← zpow_add₀ two]
      congr 1
      rw [← zpow_natCast]
      congr 1
      ring
    · obtain ⟨e, he⟩ := Nat.exists_eq_succ_of_ne_zero h
      simp only [h, if_false]
      rw [he, eq_div_iff (by positivity), mul_assoc, ← zpow_add₀ two]
      have : ((e.succ : ℕ) : ℤ) - B + (B + fb - 1) = ((e + fb : ℕ) : ℤ) := by
        push_cast
        ring
      rw [this, zpow_natCast, pow_add]
      push_cast
      field_simp
  rcases signBit_cases w with s | s <;> simp only [realOf, scaledReal, s] <;> simp only [mag] <;> simp [neg_div]

theorem realOf_eq_one (w : NativeWord) : realOf w = 1 ↔ scaledReal w = scale w.fmt := by
  rw [realOf_eq_scaled, div_eq_iff (scale_pos _).ne', one_mul]
  exact_mod_cast Iff.rfl

theorem realOf_eq_neg_one (w : NativeWord) : realOf w = -1 ↔ scaledReal w = -scale w.fmt := by
  rw [realOf_eq_scaled, div_eq_iff (scale_pos _).ne', neg_one_mul]
  exact_mod_cast Iff.rfl

theorem one_lt_realOf (w : NativeWord) : realOf w > 1 ↔ scaledReal w > scale w.fmt := by
  rw [realOf_eq_scaled, gt_iff_lt, lt_div_iff₀ (scale_pos _), one_mul]
  exact_mod_cast Iff.rfl

theorem realOf_lt_neg_one (w : NativeWord) : realOf w < -1 ↔ scaledReal w < -scale w.fmt := by
  rw [realOf_eq_scaled, div_lt_iff₀ (scale_pos _), neg_one_mul]
  exact_mod_cast Iff.rfl

theorem abs_realOf (w : NativeWord) : |realOf w| = (scaledMag w : ℚ) / scale w.fmt := by
  rw [realOf_eq_scaled, abs_div, abs_of_pos (scale_pos _)]
  congr 1
  rcases signBit_cases w with s | s <;> simp [scaledReal, s]

/-- The magnitude bits are the exponent field above the fraction field (R12). -/
theorem magBits_eq_fields (w : NativeWord) :
    magBits w = expField w * 2 ^ w.fmt.fracBits + fracField w ∧ fracField w < 2 ^ w.fmt.fracBits
      ∧ expField w ≤ emax w.fmt := by
  cases w with
  | b32 x =>
    simp [magBits, expField, fracField, NativeWord.fmt, NativeFmt.fracBits, emax, NativeFmt.expBits,
      Nat.shiftRight_eq_div_pow]
    omega
  | b64 x =>
    simp [magBits, expField, fracField, NativeWord.fmt, NativeFmt.fracBits, emax, NativeFmt.expBits,
      Nat.shiftRight_eq_div_pow]
    omega

/-- In terms of the magnitude bits: an infinity is `INF_M`, and a NaN is above it. -/
theorem isInf_isNaN_iff_magBits (w : NativeWord) :
    (isInf w = true ↔ magBits w = infMag w.fmt) ∧ (isNaN w = true ↔ infMag w.fmt < magBits w) := by
  obtain ⟨h, hF, hE⟩ := magBits_eq_fields w
  have inf : infMag w.fmt = emax w.fmt * 2 ^ w.fmt.fracBits := by cases w.fmt <;> decide
  have pos : 0 < 2 ^ w.fmt.fracBits := by positivity
  rw [inf, h]
  simp only [isInf, isNaN, Bool.and_eq_true, beq_iff_eq, bne_iff_ne]
  rcases Nat.lt_or_ge (expField w) (emax w.fmt) with hl | hg
  · have : (expField w + 1) * 2 ^ w.fmt.fracBits ≤ emax w.fmt * 2 ^ w.fmt.fracBits := Nat.mul_le_mul_right _ hl
    rw [add_mul] at this
    constructor <;> constructor <;> intro h <;> omega
  · have e : expField w = emax w.fmt := by omega
    rw [e]
    constructor <;> constructor <;> intro h <;> omega

end Sys2Proof.Machine
end

