-- ==== Sys2Proof/Laws/PerInstr.lean ====
section
/-!
SUPPORT. Family `Encoding`: what holds of every operation as syntax: its encoding is not a reserved value, decodes to it, and is
read from an opcode-table word of one byte (R302, R304, R305).
-/

namespace Sys2Proof.Laws.Encoding

/-- The encoding of `i` is an assigned value that decodes to `i`, in the port and in a table word. -/
def Statement (i : Instr) : Prop :=
  encode i ∉ reservedOps ∧ decode (encode i) = .ok i ∧ decodeTableWord 8 (encode i).toNat = some i

theorem band : Statement .band := ⟨by decide, by decide, by decide⟩
theorem bor : Statement .bor := ⟨by decide, by decide, by decide⟩
theorem bxor : Statement .bxor := ⟨by decide, by decide, by decide⟩
theorem bnot : Statement .bnot := ⟨by decide, by decide, by decide⟩
theorem bnand : Statement .bnand := ⟨by decide, by decide, by decide⟩
theorem badd : Statement .badd := ⟨by decide, by decide, by decide⟩
theorem add4 : Statement .add4 := ⟨by decide, by decide, by decide⟩
theorem sub4 : Statement .sub4 := ⟨by decide, by decide, by decide⟩
theorem not4 : Statement .not4 := ⟨by decide, by decide, by decide⟩
theorem neg4 : Statement .neg4 := ⟨by decide, by decide, by decide⟩
theorem f3enc : Statement .f3enc := ⟨by decide, by decide, by decide⟩
theorem f3dec : Statement .f3dec := ⟨by decide, by decide, by decide⟩
theorem f3neg : Statement .f3neg := ⟨by decide, by decide, by decide⟩
theorem f3eq : Statement .f3eq := ⟨by decide, by decide, by decide⟩
theorem f3add : Statement .f3add := ⟨by decide, by decide, by decide⟩
theorem f3sub : Statement .f3sub := ⟨by decide, by decide, by decide⟩
theorem f3mul : Statement .f3mul := ⟨by decide, by decide, by decide⟩
theorem f3div : Statement .f3div := ⟨by decide, by decide, by decide⟩
theorem f3rem : Statement .f3rem := ⟨by decide, by decide, by decide⟩
theorem f3one : Statement .f3one := ⟨by decide, by decide, by decide⟩
theorem f3zero : Statement .f3zero := ⟨by decide, by decide, by decide⟩

end Sys2Proof.Laws.Encoding
end

