-- ==== Sys2Proof/Tests/Slice0.lean ====
section
/-!
SUPPORT. Small tests with results taken from the spec's rules and from spec/95_test_vectors.md, the smoke tests of
WellFormed.lean, and for each statement with hypotheses a witness that meets them.
-/

namespace Sys2Proof.Tests

open Sys2Proof Sys2Proof.Machine

/-- Inputs with only `op` driven. -/
def select (op : OpSel) (fmt : NativeFmt := .binary64) : Inputs := { Inputs.zero fmt with op := op }

/-- The outputs of one evaluation in the default configuration of a format. -/
def outputs (x : Inputs) (fmt : NativeFmt := .binary64) : Outputs := evalPorts (defaultConfig fmt) 0 x

/-- A state of the default binary64 configuration with the given inputs. -/
def driven (x : Inputs) : State := State.reset.drive x

/-- An `F3_MAP` other than the default: the ones and the infinities change places. -/
def swappedMap : F3Map :=
  { defaultF3Map with posOne := 0b010#3, posInfinity := 0b001#3, negOne := 0b110#3, negInfinity := 0b101#3 }

/-- A configuration that is no default: binary32, a payload without the quiet bit, the swapped map. -/
def otherConfig : Config := { native := .binary32 0x000001#23, f3Map := swappedMap }

/-- A state of that configuration with the given inputs. -/
def otherState (x : Inputs) : State := { State.powerUp .binary32 with cfg := otherConfig, inp := x }

/-! ## Decoding: a word of each family written out from R300 and R302 (`grp` in bits 4:3, `fn` in bits 2:0) -/

theorem test_decode_bnand : decodeTableWord 8 0b00000100 = some .bnand := by decide
theorem test_decode_sub4 : decodeTableWord 8 0b00001001 = some .sub4 := by decide
theorem test_decode_neg4 : decodeTableWord 8 0b00001011 = some .neg4 := by decide
theorem test_decode_f3enc : decodeTableWord 8 0b00010000 = some .f3enc := by decide
theorem test_decode_f3dec : decodeTableWord 8 0b00010001 = some .f3dec := by decide
theorem test_decode_f3rem : decodeTableWord 8 0b00011000 = some .f3rem := by decide
theorem test_decode_reserved_after_f3zero : decodeTableWord 8 0b00011011 = none := by decide
theorem test_decode_rest :
    [0x00, 0x01, 0x02, 0x03, 0x05, 0x08, 0x0A, 0x12, 0x13, 0x14, 0x15, 0x16, 0x17, 0x19, 0x1A].map (decodeTableWord 8)
      = [Instr.band, .bor, .bxor, .bnot, .badd, .add4, .not4, .f3neg, .f3eq, .f3add, .f3sub, .f3mul, .f3div, .f3one,
          .f3zero].map some := by decide
theorem test_mnemonic_of_word : (decodeTableWord 8 0x0B).map Instr.mnemonic = some "NEG4" := by decide

/-! ## WellFormed: an ill-formed term for each check -/

theorem test_wf_refuses_map_with_a_repeat : ({ defaultF3Map with negNan := 0b000#3 } : F3Map).wf = false := by decide
theorem test_wf_refuses_zero_payload32 : (NativeConfig.binary32 0#23).wf = false := by decide
theorem test_wf_refuses_zero_payload64 : (NativeConfig.binary64 0#52).wf = false := by decide
theorem test_wf_refuses_config : ({ defaultConfig .binary64 with native := .binary64 0#52 } : Config).wf = false := by decide
theorem test_wf_takes_other_map : swappedMap.wf = true ∧ otherConfig.wf = true := by decide
theorem test_wf_refuses_forward_reference : programWf .binary64 0 [{ op := 0x0A#5, a := .rOf 0 }] = false := by decide
theorem test_wf_refuses_word_of_other_format :
    programWf .binary64 0 [{ op := 0x10#5, f := .lit (.b32 0x40A00000#32) }] = false := by decide

/-! ## The operations -/

-- R400 with V1.1 and V1.2: only bit 0 is read
theorem test_band_reads_bit_zero :
    (outputs { select 0x00#5 with a := 0b1111#4, b := 0b0001#4 }).r = 0b0001#4
    ∧ (outputs { select 0x00#5 with a := 0b1110#4, b := 0b1111#4 }).r = 0b0000#4 := by decide
-- V1.11
theorem test_band_drives_no_carry :
    outputs { select 0x00#5 with a := 0b0001#4, b := 0b0001#4, cin := 1#1 }
      = { Outputs.zero .binary64 with r := 0b0001#4 } := by decide
-- R402's example, and V1.3
theorem test_bor :
    (outputs { select 0x01#5 with a := 0b0001#4 }).r = 0b0001#4
    ∧ (outputs { select 0x01#5 with cin := 1#1, p := 0b111#3 }).r = 0b0000#4 := by decide
-- V1.4
theorem test_bxor : (outputs { select 0x02#5 with a := 0b0001#4, b := 0b1111#4 }).r = 0b0000#4 := by decide
-- V1.5 and V1.6
theorem test_bnot :
    (outputs { select 0x03#5 with a := 0b1110#4 }).r = 0b0001#4
    ∧ (outputs { select 0x03#5 with a := 0b1111#4 }).r = 0b0000#4 := by decide
-- V1.7 and V1.8
theorem test_bnand :
    (outputs (select 0x04#5)).r = 0b0001#4
    ∧ (outputs { select 0x04#5 with a := 0b0001#4, b := 0b0001#4 }).r = 0b0000#4 := by decide
-- W1.7 and V1.10
theorem test_badd :
    outputs { select 0x05#5 with a := 0b0001#4, b := 0b0001#4, cin := 1#1 }
      = { Outputs.zero .binary64 with r := 0b0001#4, cout := 1#1 }
    ∧ outputs { select 0x05#5 with a := 0b0110#4, b := 0b1010#4 } = Outputs.zero .binary64 := by decide
-- W4.2 (carry 0, overflow 1) and V2.3 (the carry ripples through every stage)
theorem test_add4 :
    outputs { select 0x08#5 with a := 0b0111#4, b := 0b0001#4 }
      = { Outputs.zero .binary64 with r := 0b1000#4, ovf := 1#1 }
    ∧ outputs { select 0x08#5 with a := 0b1111#4, cin := 1#1 }
      = { Outputs.zero .binary64 with cout := 1#1 } := by decide
-- W5.1 (borrow: carry 0) and V3.6; V3.4: `cin` ignored
theorem test_sub4 :
    outputs { select 0x09#5 with a := 0b0011#4, b := 0b0101#4, cin := 1#1 }
      = { Outputs.zero .binary64 with r := 0b1110#4 }
    ∧ outputs { select 0x09#5 with a := 0b1000#4, b := 0b0001#4 }
      = { Outputs.zero .binary64 with r := 0b0111#4, cout := 1#1, ovf := 1#1 } := by decide
-- V4.3
theorem test_not4 :
    outputs { select 0x0A#5 with a := 0b0111#4, cin := 1#1 } = { Outputs.zero .binary64 with r := 0b1000#4 } := by decide
-- V4.4 and V4.7
theorem test_neg4 :
    outputs (select 0x0B#5) = { Outputs.zero .binary64 with cout := 1#1 }
    ∧ outputs { select 0x0B#5 with a := 0b1000#4, b := 0b1111#4 }
      = { Outputs.zero .binary64 with r := 0b1000#4, ovf := 1#1 } := by decide
-- V5.4 and V5.5: the words on both sides of 1
theorem test_f3enc_around_one :
    (outputs { select 0x10#5 with f := .b64 0x3FF0000000000001#64 }).z = 0b010#3
    ∧ (outputs { select 0x10#5 with f := .b64 0x3FEFFFFFFFFFFFFF#64 }).z = 0b011#3 := by decide +kernel
-- W6.6, and R555's smallest negative subnormal, in binary32
theorem test_f3enc_binary32 :
    (outputs { select 0x10#5 with f := .b32 0x3E99999A#32 } .binary32).z = 0b011#3
    ∧ (outputs { select 0x10#5 with f := .b32 0x80000001#32 } .binary32).z = 0b111#3 := by decide +kernel
-- V6.5 in both formats
theorem test_f3dec_minus_one :
    outputs { select 0x11#5 with p := 0b101#3 } = { Outputs.zero .binary64 with fo := .b64 0xBFF0000000000000#64 }
    ∧ outputs { select 0x11#5 .binary32 with p := 0b101#3 } .binary32
      = { Outputs.zero .binary32 with fo := .b32 0xBF800000#32 } := by decide
-- V6.7 in both formats
theorem test_f3dec_negative_nan :
    (outputs { select 0x11#5 with p := 0b111#3 }).fo = .b64 0xFFF8000000000000#64
    ∧ (outputs { select 0x11#5 .binary32 with p := 0b111#3 } .binary32).fo = .b32 0xFFC00000#32 := by decide
-- R650's full map
theorem test_f3neg :
    [0b000#3, 0b001#3, 0b010#3, 0b011#3, 0b100#3, 0b101#3, 0b110#3, 0b111#3].map
        (fun p => (outputs { select 0x12#5 with p := p }).z)
      = [0b100#3, 0b101#3, 0b110#3, 0b111#3, 0b000#3, 0b001#3, 0b010#3, 0b011#3] := by decide
-- V7.1 and V7.2
theorem test_f3eq :
    (outputs { select 0x13#5 with p := 0b000#3, q := 0b100#3 }).eq = 1#1
    ∧ (outputs { select 0x13#5 with p := 0b011#3, q := 0b011#3 }).eq = 0#1 := by decide
-- W8.1 and W9.1
theorem test_f3add :
    (outputs { select 0x14#5 with p := 0b001#3, q := 0b001#3 }).z = 0b010#3
    ∧ (outputs { select 0x14#5 with p := 0b000#3, q := 0b100#3 }).z = 0b000#3 := by decide +kernel
-- V7.15: a NaN takes one draw (its sign is the free value); V7.13 takes none
theorem test_f3add_draws :
    (evaluate (driven { select 0x14#5 with p := 0b010#3, q := 0b110#3 })).draws = 1
    ∧ (evaluate (driven { select 0x14#5 with p := 0b001#3, q := 0b101#3 })).draws = 0 := by decide +kernel
-- R662's example, and V7.12
theorem test_f3sub :
    (outputs { select 0x15#5 with p := 0b101#3, q := 0b001#3 }).z = 0b110#3
    ∧ (outputs { select 0x15#5 with p := 0b100#3, q := 0b000#3 }).z = 0b100#3 := by decide +kernel
-- R663: +0 × -1 = -0, and its example
theorem test_f3mul :
    (outputs { select 0x16#5 with p := 0b000#3, q := 0b101#3 }).z = 0b100#3
    ∧ (outputs { select 0x16#5 with p := 0b101#3, q := 0b110#3 }).z = 0b010#3 := by decide +kernel
-- V7.20 and V7.22
theorem test_f3div :
    (outputs { select 0x17#5 with p := 0b001#3, q := 0b100#3 }).z = 0b110#3
    ∧ (outputs { select 0x17#5 with p := 0b101#3, q := 0b010#3 }).z = 0b100#3 := by decide +kernel
-- V7.23 and V7.24
theorem test_f3rem :
    (outputs { select 0x18#5 with p := 0b001#3, q := 0b010#3 }).z = 0b001#3
    ∧ (outputs { select 0x18#5 with p := 0b101#3, q := 0b001#3 }).z = 0b100#3 := by decide +kernel
-- V7.32
theorem test_f3one : outputs { select 0x19#5 with p := 0b111#3, q := 0b111#3 } = { Outputs.zero .binary64 with z := 0b001#3 } := by
  decide
-- V7.31
theorem test_f3zero : outputs { select 0x1A#5 with p := 0b111#3 } = Outputs.zero .binary64 := by decide
-- V8.5
theorem test_reserved_drives_err_alone :
    outputs { op := 0x06#5, a := 0b1111#4, b := 0b1111#4, cin := 1#1, p := 0b111#3, q := 0b111#3,
              f := .b64 0x3FF0000000000000#64 }
      = { Outputs.zero .binary64 with err := 1#1 } := by decide
-- an `F3_MAP` other than the default: 1 + 1 saturates to that map's +∞
theorem test_other_map_add :
    (evaluate (otherState { select 0x14#5 .binary32 with p := 0b010#3, q := 0b010#3 })).out.z = 0b001#3 := by decide +kernel

/-! ## Native arithmetic outside the fp3 domain (IEEE-754, by hand) -/

-- 2^53 + 1 is a tie, rounded to even; the largest finite value doubled overflows; the smallest subnormal halved is a tie to 0
theorem test_native_rounding :
    nativeAdd (.b64 0x4340000000000000#64) (.b64 0x3FF0000000000000#64) = .number (.b64 0x4340000000000000#64)
    ∧ nativeMul (.b32 0x7F7FFFFF#32) (.b32 0x40000000#32) = .number (.b32 0x7F800000#32)
    ∧ nativeDiv (.b32 0x00000001#32) (.b32 0x40000000#32) = .number (.b32 0x00000000#32) := by decide +kernel

/-! ## The host's side -/

-- R134
theorem test_render_nibble :
    renderNibble 0b1000#4 = ['-', '8'] ∧ renderNibble 0b0111#4 = ['7'] ∧ renderBit 1#1 = '1' := by decide
-- R310's examples
theorem test_text_add4 :
    evalText .binary64 { op := 0x08#5, a := .lit 0b0111#4, b := .lit 0b0001#4 } = "ADD4 a=0111, b=0001, cin=0".toList := by
  decide
theorem test_text_f3enc :
    evalText .binary64 { op := 0x10#5, f := .lit (.b64 0x4014000000000000#64) } = "F3ENC f=0x4014000000000000".toList := by
  decide
-- program P2a: 0x5A + 0x37 = 0x91
theorem test_program_wide_add :
    (programResults State.reset
      [{ op := 0x08#5, a := .lit 0b1010#4, b := .lit 0b0111#4 },
       { op := 0x08#5, a := .lit 0b0101#4, b := .lit 0b0011#4, cin := .coutOf 0 }]).map
        (fun os => os.map fun o => (o.r, o.cout, o.ovf))
      = .ok [(0b0001#4, 1#1, 0#1), (0b1001#4, 0#1, 1#1)] := by decide
-- program P4: the fault of the first evaluation leaves nothing behind
theorem test_program_err_not_sticky :
    (programResults State.reset
      [{ op := 0x06#5, a := .lit 0b1111#4, b := .lit 0b0001#4 },
       { op := 0x08#5, a := .lit 0b1111#4, b := .lit 0b0001#4 }]).map
        (fun os => os.map fun o => (o.r, o.cout, o.ovf, o.err))
      = .ok [(0b0000#4, 0#1, 0#1, 1#1), (0b0000#4, 1#1, 0#1, 0#1)] := by decide

/-! ## Witnesses: each statement's hypotheses can be met -/

theorem witness_StepRunsTheSelectedOperation : decode State.reset.inp.op = .ok .band := by decide

theorem witness_ReservedOpFaultsWithErr :
    (driven (select 0x06#5)).inp.op ∈ reservedOps ∧ (driven (select 0x1F#5)).inp.op ∈ reservedOps := by decide

theorem witness_ErrIsNotSticky :
    (driven (select 0x0C#5)).inp.op ∈ reservedOps ∧ (select 0x08#5).op ∉ reservedOps := by decide

theorem witness_UndrivenOutputsAreZero :
    exec .f3dec (driven (select 0x11#5)) = .next (evaluate (driven (select 0x11#5)))
    ∧ OutPort.r ∉ portsDriven .f3dec
    ∧ step (driven (select 0x0F#5)) = .fault (.illegalOp 0x0F#5 (raiseErr (driven (select 0x0F#5)))) :=
  ⟨rfl, by decide, rfl⟩

theorem witness_UnreadInputsHaveNoEffect :
    (∀ port ∈ portsRead .band,
      port.agree (select 0x00#5) { select 0x00#5 with a := 0b1110#4, cin := 1#1, p := 0b111#3 } = true)
    ∧ ∀ port ∈ portsRead .f3one, port.agree (select 0x19#5) { select 0x19#5 with p := 0b111#3 } = true := by decide

theorem witness_EqualInputsGiveEqualOutputs :
    (∃ t u : State, exec .add4 State.reset = .next t ∧ exec .add4 t = .next u ∧ drawsNaNSign .add4 = false)
    ∧ ∃ t u : State, exec .f3div State.reset = .next t ∧ exec .f3div t = .next u ∧ drawsNaNSign .f3div = true :=
  ⟨⟨_, _, rfl, rfl, rfl⟩, ⟨_, _, rfl, rfl, rfl⟩⟩

theorem witness_OperationsChangeOnlyOutputs :
    ∃ t : State, exec .f3add (driven { select 0x14#5 with p := 0b011#3 }) = .next t := ⟨_, rfl⟩

theorem reset_inv : State.reset.Inv := ⟨by decide, by decide, 0, by decide⟩

/-- A state whose outputs are `EVAL` of a reserved `op`. -/
def erredState : State := evaluate (driven (select 0x07#5))

theorem witness_StepKeepsInvariant :
    (State.reset.Inv ∧ ∃ t : State, step State.reset = .next t)
    ∧ erredState.Inv ∧ ∃ t : State, step erredState = .fault (.illegalOp 0x07#5 t) :=
  ⟨⟨reset_inv, _, rfl⟩, ⟨by decide, by decide, 0, by decide⟩, _, rfl⟩

theorem witness_EveryStepSettlesOutputs : ∃ t : State, step (driven (select 0x10#5)) = .next t := ⟨_, rfl⟩

theorem witness_F3EncBitLevelForm : State.reset.cfg.f3Map = defaultF3Map := rfl

/-- 5.0 is finite and above 1 in magnitude, and so is -5.0 in binary32. -/
theorem witness_F3EncSaturatesLargeInputs :
    (isFinite (.b64 0x4014000000000000#64) = true ∧ 1 < |realOf (.b64 0x4014000000000000#64)|)
    ∧ isFinite (.b32 0xC0A00000#32) = true ∧ 1 < |realOf (.b32 0xC0A00000#32)| := by
  refine ⟨⟨by decide, ?_⟩, by decide, ?_⟩ <;> rw [abs_realOf, lt_div_iff₀ (scale_pos _), one_mul, Nat.cast_lt] <;>
    decide +kernel

/-- The smallest subnormal meets the first case, a signalling NaN the second. -/
theorem witness_F3EncNaNBuckets :
    (isFinite (.b64 0x0000000000000001#64) = true ∧ 0 < |realOf (.b64 0x0000000000000001#64)|
      ∧ |realOf (.b64 0x0000000000000001#64)| < 1)
    ∧ isNaN (.b32 0x7F800001#32) = true := by
  refine ⟨⟨by decide, ?_, ?_⟩, by decide⟩
  · rw [abs_realOf, lt_div_iff₀ (scale_pos _), zero_mul]
    exact_mod_cast (by decide : 0 < scaledMag (.b64 0x0000000000000001#64))
  · rw [abs_realOf, div_lt_one (scale_pos _), Nat.cast_lt]
    decide +kernel

theorem witness_F3EncCornerTable :
    State.reset.cfg.f3Map = defaultF3Map
    ∧ ((0x00000000#32, 0x0000000000000000#64, 0b000#3) : BitVec 32 × BitVec 64 × F3) ∈ encoderCorners :=
  ⟨rfl, by simp [encoderCorners]⟩

theorem witness_EveryPatternIsAConstant : defaultF3Map.wf = true ∧ swappedMap.wf = true := by decide

theorem witness_F3DecNativeTable :
    ((0b000#3, 0x00000000#32, 0x0000000000000000#64) : F3 × BitVec 32 × BitVec 64) ∈ decoderTable
    ∧ (State.powerUp .binary32).inp.p = 0b000#3 ∧ (State.powerUp .binary32).cfg = defaultConfig .binary32
    ∧ State.reset.inp.p = 0b000#3 ∧ State.reset.cfg = defaultConfig .binary64 :=
  ⟨by simp [decoderTable], rfl, rfl, rfl, rfl⟩

/-- The premise of F3DecExactValues, PatternRoundTrip, RoundingIsIdempotent, the five result tables and PseudoOperationResults,
in the default configuration and in another. -/
theorem witness_wellFormedConfiguration :
    State.reset.wf = true ∧ (otherState (select 0x14#5 .binary32)).wf = true := by decide

/-- Each clause of F3DecExactValues has a pattern of its own. -/
theorem witness_F3DecExactValues_clauses :
    named defaultF3Map 0b000#3 = .posZero ∧ named defaultF3Map 0b100#3 = .negZero ∧ named defaultF3Map 0b001#3 = .posOne
    ∧ named defaultF3Map 0b101#3 = .negOne ∧ named defaultF3Map 0b010#3 = .posInfinity
    ∧ named defaultF3Map 0b111#3 = .negNan := by decide

theorem witness_F3NegFlipsTheSign_and_F3EqIsNativeEquality :
    State.reset.cfg.f3Map = defaultF3Map ∧ State.reset.wf = true := by decide

theorem witness_NaNSignIsDrawnFresh :
    drawsNaNSign .f3rem = true ∧ State.reset.wf = true ∧ givesNaN .f3rem .posOne .negZero
    ∧ ¬ givesNaN .f3rem .posOne .posInfinity := by
  refine ⟨rfl, by decide, ?_, ?_⟩ <;> simp [givesNaN]

/-- Each clause of NativeResultsAreExact is met: 1 + 1 = 2, 1 - 1 = 0, -1 × 1, 1 ÷ -1, 1 rem -1 on finite operands with a divisor
that is not 0; 1 ÷ 0; a finite operand with an infinite one; and infinite first operands. -/
theorem witness_NativeResultsAreExact :
    let n := defaultNative .binary64
    let one := native n .posOne
    let negOne := native n .negOne
    let zero := native n .posZero
    let inf := native n .posInfinity
    (n.wf = true ∧ isFinite one = true ∧ isFinite negOne = true ∧ isFinite zero = true ∧ isInf inf = true)
    ∧ (nativeAdd one one = .number (.b64 0x4000000000000000#64) ∧ nativeSub one one = .number zero
      ∧ nativeMul negOne one = .number negOne ∧ nativeDiv one negOne = .number negOne ∧ nativeRem one negOne = .number zero)
    ∧ (nativeDiv one zero = .number inf ∧ nativeDiv one inf = .number zero ∧ nativeRem one inf = .number one
      ∧ nativeAdd inf one = .number inf ∧ nativeDiv inf one = .number inf) := by decide +kernel

/-- The divisors of the witness above: -1 is not 0, and 0 is. -/
theorem witness_NativeResultsAreExact_divisors :
    realOf (native (defaultNative .binary64) .negOne) ≠ 0 ∧ realOf (native (defaultNative .binary64) .posZero) = 0 := by
  refine ⟨?_, ?_⟩
  · rw [(realOf_eq_neg_one _).2 (by decide +kernel)]; norm_num
  · have zero : scaledReal (native (defaultNative .binary64) .posZero) = 0 := by decide
    rw [realOf_eq_scaled, zero, Int.cast_zero, zero_div]

theorem witness_Fp3ConstantsAreIdentities :
    State.reset.cfg.f3Map = defaultF3Map ∧ State.reset.wf = true
    ∧ named State.reset.cfg.f3Map State.reset.inp.p ≠ .posNan ∧ named State.reset.cfg.f3Map State.reset.inp.p ≠ .negNan
    ∧ named defaultF3Map 0b100#3 = .negZero := by decide

theorem witness_WellFormedProgramsRun :
    programWf State.reset.cfg.fmt 0
      [{ op := 0x10#5, f := .lit (.b64 0x4014000000000000#64) }, { op := 0x11#5, p := .zOf 0 }] = true := by decide

theorem witness_NibbleConversionRoundTrip :
    nibbleOfInt (-8) = .ok 0b1000#4 ∧ nibbleOfInt 7 = .ok 0b0111#4
    ∧ nibbleOfInt (-9) = .error (.integerOutsideNibble (-9)) ∧ nibbleOfInt 8 = .error (.integerOutsideNibble 8) := by decide

end Sys2Proof.Tests
end

/-! The integer readings of a nibble (00_scope.md R8 and R10). -/
section
namespace Sys2Proof.Machine

/-- R8 and R10: index 0 of the document carries the weight -8, and indices 1 to 3 the weights 4, 2 and 1. -/
theorem sval_eq_documentBits (n : Nibble) :
    sval n = -8 * ((documentBit n 0).toNat : Int) + 4 * ((documentBit n 1).toNat : Int)
      + 2 * ((documentBit n 2).toNat : Int) + ((documentBit n 3).toNat : Int) := rfl

@[simp] theorem uval_nib (k : Int) : (uval (nib k) : Int) = k % 16 := by
  have toNat_nib : (nib k).toNat = (k % 16).toNat := BitVec.toNat_ofInt k
  rw [uval_eq_toNat, toNat_nib, Int.toNat_of_nonneg (Int.emod_nonneg k (by decide))]

/-- For every integer the signed reading is the balanced residue modulo 16. -/
@[simp] theorem sval_nib (k : Int) : sval (nib k) = k.bmod 16 := by
  rw [sval_eq_toInt, nib, BitVec.toInt_ofInt]

theorem sval_nib_of_mem_range {k : Int} (lower : -8 ≤ k) (upper : k ≤ 7) : sval (nib k) = k := by
  rw [sval_nib, Int.bmod_eq_of_le (by omega) (by omega)]

/-- Settles O58, from the readings of a nibble by its bits and of `nib k` for an arbitrary integer `k`. -/
theorem nibbleReadings : Obligations.NibbleReadings :=
  ⟨fun n => ⟨sval_eq_documentBits n, sval_bounds n⟩, uval_eq_toNat, uval_nib, fun _ => sval_nib_of_mem_range⟩

end Sys2Proof.Machine
end

/-! What `exec`, `step` and `evaluate` leave in each field, whichever operation runs (10_state.md R100, R104, R140). -/
section
namespace Sys2Proof.Machine

/-- The inversion of `exec`: a completed operation has driven the output ports, after at most one draw of a NaN sign. -/
theorem exec_next_cases {i : Instr} {s t : State} (h : exec i s = .next t) :
    ∃ o : Outputs, o.err = 0#1 ∧ o.fo.fmt = s.cfg.fmt ∧
      (t = { s with out := o } ∨ (drawsNaNSign i = true ∧ t = { s.drawn with out := o })) := by
  obtain ⟨o, herr, hfmt, run | ⟨draws, run⟩⟩ := exec_cases i s
  · exact ⟨o, herr, hfmt, .inl (Host.Outcome.next.inj (h.symm.trans (run s.out)))⟩
  · exact ⟨o, herr, hfmt, .inr ⟨draws, Host.Outcome.next.inj (h.symm.trans (run s.out))⟩⟩

/-- R701: every operation completes, at every state. -/
theorem exec_completes (i : Instr) (s : State) : ∃ t : State, exec i s = .next t := by
  obtain ⟨o, -, -, run | ⟨-, run⟩⟩ := exec_cases i s
  · exact ⟨_, run s.out⟩
  · exact ⟨_, run s.out⟩

/-- An operation reads no output port (R104, R210). -/
theorem exec_with_out (i : Instr) (s : State) (o : Outputs) : exec i { s with out := o } = exec i s := by
  obtain ⟨o', -, -, run | ⟨-, run⟩⟩ := exec_cases i s
  · exact (run o).trans (run s.out).symm
  · exact (run o).trans (run s.out).symm

theorem step_of_decode_ok {s : State} {i : Instr} (h : decode s.inp.op = .ok i) : step s = exec i s := by
  simp [step, h]

theorem step_of_reserved {s : State} {op : OpSel} (h : decode s.inp.op = .error (.reservedOp op)) :
    step s = .fault (.illegalOp op (raiseErr s)) := by
  simp [step, h, takeIllegalOp]

theorem step_with_out (s : State) (o : Outputs) : step { s with out := o } = step s := by
  obtain ⟨i, hop, run⟩ | ⟨reserved, run⟩ := step_cases s
  · have run' : step { s with out := o } = exec i { s with out := o } := step_of_decode_ok hop
    rw [run', run, exec_with_out]
  · rw [run]
    exact step_of_reserved reserved

theorem evaluate_of_step_next {s t : State} (h : step s = .next t) : evaluate s = t := by
  simp [evaluate, h]

theorem evaluate_of_step_fault {s t : State} {op : OpSel} (h : step s = .fault (.illegalOp op t)) : evaluate s = t := by
  simp [evaluate, h]

theorem evaluate_with_out (s : State) (o : Outputs) : evaluate { s with out := o } = evaluate s := by
  obtain ⟨i, -, run⟩ | ⟨-, fault⟩ := step_cases s
  · obtain ⟨t, done⟩ := exec_completes i s
    have next : step s = .next t := run.trans done
    rw [evaluate_of_step_next next, evaluate_of_step_next ((step_with_out s o).trans next)]
  · rw [evaluate_of_step_fault fault, evaluate_of_step_fault ((step_with_out s o).trans fault)]

/-- The frame of one evaluation, of an assigned or a reserved `op`: it keeps the configuration and the inputs, and drives
`fo` in the configured format. -/
theorem evaluate_frame (s : State) :
    (evaluate s).cfg = s.cfg ∧ (evaluate s).inp = s.inp ∧ (evaluate s).out.fo.fmt = s.cfg.fmt := by
  obtain ⟨i, -, run⟩ | ⟨-, fault⟩ := step_cases s
  · obtain ⟨t, done⟩ := exec_completes i s
    rw [evaluate_of_step_next (run.trans done)]
    obtain ⟨o, -, hfmt, rfl | ⟨-, rfl⟩⟩ := exec_next_cases done
    · exact ⟨rfl, rfl, hfmt⟩
    · exact ⟨rfl, rfl, hfmt⟩
  · rw [evaluate_of_step_fault fault]
    exact ⟨rfl, rfl, ofBits_fmt _ _⟩

@[simp] theorem evaluate_cfg (s : State) : (evaluate s).cfg = s.cfg := (evaluate_frame s).1

@[simp] theorem evaluate_inp (s : State) : (evaluate s).inp = s.inp := (evaluate_frame s).2.1

@[simp] theorem evaluate_out_fo_fmt (s : State) : (evaluate s).out.fo.fmt = s.cfg.fmt := (evaluate_frame s).2.2

/-- The outputs of one evaluation are `EVAL` of the inputs, with the draw the block was about to take. -/
theorem evaluate_out (s : State) : (evaluate s).out = evalPorts s.cfg s.draws s.inp := by
  rw [evalPorts, ← evaluate_with_out s (Outputs.zero s.cfg.fmt)]

theorem evaluate_settled (s : State) : (evaluate s).Settled :=
  ⟨s.draws, by rw [evaluate_cfg, evaluate_inp, evaluate_out]⟩

/-- One evaluation of a well-built block whose `f` port has its format leaves the invariant, whatever its outputs were. -/
theorem evaluate_inv {s : State} (hwf : s.wf = true) (hf : s.inp.f.fmt = s.cfg.fmt) : (evaluate s).Inv :=
  ⟨by rwa [State.wf, evaluate_cfg], by simp [State.formatOk, hf], evaluate_settled s⟩

theorem State.Inv.evaluate {s : State} (h : s.Inv) : (evaluate s).Inv := by
  obtain ⟨hwf, hfmt, -⟩ := h
  rw [State.formatOk, Bool.and_eq_true, beq_iff_eq] at hfmt
  exact evaluate_inv hwf hfmt.1

end Sys2Proof.Machine
end

/-! The block's invariant, its frame, and the operation a step selects (10_state.md R104, R140; 70_reset_and_hazards.md R800). -/
section
namespace Sys2Proof.Machine

/-- Settles O13: the state in either outcome is `evaluate s`, which meets the invariant. -/
theorem stepKeepsInvariant : Obligations.StepKeepsInvariant :=
  ⟨fun _ _ inv next => evaluate_of_step_next next ▸ inv.evaluate,
   fun _ _ _ inv fault => evaluate_of_step_fault fault ▸ inv.evaluate⟩

/-- Settles O12, from the inversion of `exec`. -/
theorem operationsChangeOnlyOutputs : Obligations.OperationsChangeOnlyOutputs := by
  intro i s t done
  obtain ⟨o, -, -, rfl | ⟨draws, rfl⟩⟩ := exec_next_cases done
  · exact ⟨rfl, rfl, .inl rfl⟩
  · exact ⟨rfl, rfl, .inr ⟨draws, rfl⟩⟩

/-- Settles O14, with the value of the draw at the state before. -/
theorem everyStepSettlesOutputs : Obligations.EveryStepSettlesOutputs :=
  fun s _ next => evaluate_of_step_next next ▸ evaluate_settled s

/-- Settles O4. -/
theorem stepRunsTheSelectedOperation : Obligations.StepRunsTheSelectedOperation :=
  fun _ _ => step_of_decode_ok

/-- Settles O10, since neither an operation nor the reserved-operation error reads an output port. -/
theorem earlierOutputsHaveNoEffect : Obligations.EarlierOutputsHaveNoEffect := step_with_out

theorem powerUp_inv (fmt : NativeFmt) : (State.powerUp fmt).Inv :=
  ⟨defaultConfig_wf fmt, by cases fmt <;> decide, 0, by cases fmt <;> decide⟩

/-- Settles O15: `State.reset` is the power-up state of binary64. -/
theorem powerUpMeetsInvariant : Obligations.PowerUpMeetsInvariant := ⟨powerUp_inv, powerUp_inv .binary64⟩

end Sys2Proof.Machine
end

/-! Programs whose operands name only earlier evaluations (30_encoding.md R310). -/
section
namespace Sys2Proof.Machine

variable {results : List Outputs}

/-- A reference below the number of results reads a field of one of them. -/
theorem exists_map_getElem?_eq_some {α : Type} {t : Nat} (port : Outputs → α) (h : t < results.length) :
    ∃ v, results[t]?.map port = some v :=
  ⟨port results[t], by rw [List.getElem?_eq_getElem h, Option.map_some]⟩

theorem exists_bitValue {x : BitSource} (h : x.refersBelow results.length = true) :
    ∃ v, bitValue results x = some v := by
  cases x with
  | lit v => exact ⟨v, rfl⟩
  | coutOf t => exact exists_map_getElem?_eq_some _ (of_decide_eq_true h)
  | ovfOf t => exact exists_map_getElem?_eq_some _ (of_decide_eq_true h)
  | eqOf t => exact exists_map_getElem?_eq_some _ (of_decide_eq_true h)

theorem exists_nibbleValue {x : NibbleSource} (h : x.refersBelow results.length = true) :
    ∃ v, nibbleValue results x = some v := by
  cases x with
  | lit v => exact ⟨v, rfl⟩
  | rOf t => exact exists_map_getElem?_eq_some _ (of_decide_eq_true h)
  | digit d =>
    obtain ⟨v, hv⟩ := exists_bitValue (x := d) h
    exact ⟨bitResult v, by rw [nibbleValue, hv, Option.map_some]⟩

theorem exists_f3Value {x : F3Source} (h : x.refersBelow results.length = true) :
    ∃ v, f3Value results x = some v := by
  cases x with
  | lit v => exact ⟨v, rfl⟩
  | zOf t => exact exists_map_getElem?_eq_some _ (of_decide_eq_true h)

theorem exists_nativeSourceValue {fmt : NativeFmt} {x : NativeSource} (h : x.refersBelow fmt results.length = true) :
    ∃ v, nativeSourceValue fmt results x = some v := by
  cases x with
  | lit w => exact ⟨w, rfl⟩
  | foOf t => exact exists_map_getElem?_eq_some _ (of_decide_eq_true h)
  | zero => exact ⟨_, rfl⟩

/-- An evaluation that names only issued ones drives every port. -/
theorem exists_driven {fmt : NativeFmt} {e : HostEval} (h : e.refersBelow fmt results.length = true) :
    ∃ x, driven fmt results e = some x := by
  simp only [HostEval.refersBelow, Bool.and_eq_true] at h
  obtain ⟨⟨⟨⟨⟨ha, hb⟩, hcin⟩, hp⟩, hq⟩, hf⟩ := h
  obtain ⟨a, ha⟩ := exists_nibbleValue ha
  obtain ⟨b, hb⟩ := exists_nibbleValue hb
  obtain ⟨cin, hcin⟩ := exists_bitValue hcin
  obtain ⟨p, hp⟩ := exists_f3Value hp
  obtain ⟨q, hq⟩ := exists_f3Value hq
  obtain ⟨f, hf⟩ := exists_nativeSourceValue hf
  exact ⟨⟨e.op, a, b, cin, p, q, f⟩, by simp only [driven, ha, hb, hcin, hp, hq, hf]⟩

/-- The first evaluation of a program, when its operands have values, is followed by the rest from the state it leaves. -/
theorem runProgram_cons {s : State} {e : HostEval} {x : Inputs} (h : driven s.cfg.fmt results e = some x) (rest : Program) :
    runProgram s results (e :: rest)
      = runProgram (evaluate (s.drive x)) (results ++ [(evaluate (s.drive x)).out]) rest := by
  simp only [runProgram, h]

/-- A well-formed rest of a program runs to its end and adds one result per evaluation. -/
theorem runProgram_of_programWf (prog : Program) {s : State} (h : programWf s.cfg.fmt results.length prog = true) :
    ∃ (t : State) (all : List Outputs),
      runProgram s results prog = .ok (t, all) ∧ all.length = results.length + prog.length := by
  induction prog generalizing s results with
  | nil => exact ⟨s, results, rfl, rfl⟩
  | cons e rest ih =>
    rw [programWf, Bool.and_eq_true] at h
    obtain ⟨he, hrest⟩ := h
    obtain ⟨x, hx⟩ := exists_driven he
    obtain ⟨t, all, run, len⟩ :=
      ih (s := evaluate (s.drive x)) (results := results ++ [(evaluate (s.drive x)).out]) (by simpa using hrest)
    refine ⟨t, all, (runProgram_cons hx rest).trans run, ?_⟩
    simp only [len, List.length_append, List.length_cons, List.length_nil]
    omega

end Sys2Proof.Machine
end

section
namespace Sys2Proof.Machine

/-- Settles O55, by induction on the program, for every list of results already there. -/
theorem wellFormedProgramsRun : Obligations.WellFormedProgramsRun := by
  intro s prog hwf
  obtain ⟨t, all, run, len⟩ := runProgram_of_programWf (results := []) prog hwf
  exact ⟨all, by rw [programResults, run], by simpa using len⟩

end Sys2Proof.Machine
end

/-! The host's conversions (10_state.md R130 to R133). -/
section
namespace Sys2Proof.Machine

theorem nibbleOfInt_of_mem_range {k : Int} (lower : -8 ≤ k) (upper : k ≤ 7) : nibbleOfInt k = .ok (nib k) :=
  if_pos ⟨lower, upper⟩

theorem nibbleOfInt_of_outside {k : Int} (h : k < -8 ∨ 7 < k) : nibbleOfInt k = .error (.integerOutsideNibble k) :=
  if_neg (by omega)

@[simp] theorem nib_sval (n : Nibble) : nib (sval n) = n := by
  rw [sval_eq_toInt, nib, BitVec.ofInt_toInt]

theorem nibbleOfInt_nibbleToInt (n : Nibble) : nibbleOfInt (nibbleToInt n) = .ok n := by
  obtain ⟨lower, upper⟩ := sval_bounds n
  rw [nibbleToInt, nibbleOfInt_of_mem_range lower upper, nib_sval]

/-- Settles O56: `nib` and `sval` are inverse on [-8, 7]. -/
theorem nibbleConversionRoundTrip : Obligations.NibbleConversionRoundTrip :=
  ⟨fun k lower upper => ⟨nib k, nibbleOfInt_of_mem_range lower upper, sval_nib_of_mem_range lower upper⟩,
   fun _ => nibbleOfInt_of_outside, nibbleOfInt_nibbleToInt⟩

theorem bitOfInt_eq (k : Int) : bitOfInt k = if k ≠ 0 then 1#1 else 0#1 := (ite_not ..).symm

/-- Settles O57. -/
theorem bitConversions : Obligations.BitConversions :=
  ⟨rfl, rfl, bitOfInt_eq, rfl, rfl, rfl, rfl⟩

end Sys2Proof.Machine
end

/-! A second evaluation of the same inputs (20_memory.md R203, 46_fp3_ops.md R680). -/
section
namespace Sys2Proof.Machine

/-- An operation that draws a NaN sign is the composite form of R660 around one native operation. -/
theorem exists_exec_eq_fp3Arith {i : Instr} (h : drawsNaNSign i = true) :
    ∃ op : NativeWord → NativeWord → NativeResult, exec i = fp3Arith op := by
  cases i
  case f3add => exact ⟨nativeAdd, rfl⟩
  case f3sub => exact ⟨nativeSub, rfl⟩
  case f3mul => exact ⟨nativeMul, rfl⟩
  case f3div => exact ⟨nativeDiv, rfl⟩
  case f3rem => exact ⟨nativeRem, rfl⟩
  all_goals cases h

theorem fp3Arith_of_number {op : NativeWord → NativeWord → NativeResult} {s : State} {w : NativeWord}
    (h : op (native s.cfg.native (fp3P s)) (native s.cfg.native (fp3Q s)) = .number w) :
    fp3Arith op s = completeZ s (bucket w) := by
  simp only [fp3Arith, h]

theorem fp3Arith_of_nan {op : NativeWord → NativeWord → NativeResult} {s : State}
    (h : op (native s.cfg.native (fp3P s)) (native s.cfg.native (fp3Q s)) = .nan) :
    fp3Arith op s = completeDrawnNaN s := by
  simp only [fp3Arith, h]

/-- The state an operation without a draw completes in is a fixed point of that operation. -/
theorem exec_again_of_no_draw {i : Instr} {s t : State} (plain : drawsNaNSign i = false) (done : exec i s = .next t) :
    exec i t = .next t := by
  obtain ⟨o, -, -, rfl | ⟨draws, -⟩⟩ := exec_next_cases done
  · exact (exec_with_out i s o).trans done
  · exact absurd draws (by simp [plain])

/-- The native operation sees the same operands both times, so both evaluations encode one number, or both draw the sign
of a NaN. -/
theorem fp3Arith_twice {op : NativeWord → NativeWord → NativeResult} {s t u : State}
    (first : fp3Arith op s = .next t) (second : fp3Arith op t = .next u) :
    u.out = t.out
    ∨ ∃ x y : Bit, t.out = { Outputs.zero s.cfg.fmt with z := pattern s.cfg.f3Map (nanBucket x) }
        ∧ u.out = { Outputs.zero s.cfg.fmt with z := pattern s.cfg.f3Map (nanBucket y) } := by
  obtain ⟨w, number, run⟩ | ⟨nan, run⟩ := fp3Arith_cases op s
  · obtain rfl := Host.Outcome.next.inj (run.symm.trans first)
    obtain rfl := Host.Outcome.next.inj (second.symm.trans (fp3Arith_of_number number))
    exact .inl rfl
  · obtain rfl := Host.Outcome.next.inj (run.symm.trans first)
    obtain rfl := Host.Outcome.next.inj (second.symm.trans (fp3Arith_of_nan nan))
    exact .inr ⟨Config.nanSign s.draws, Config.nanSign (s.draws + 1), rfl, rfl⟩

/-- Settles O11: without a draw the second evaluation changes nothing; with one, it differs in a NaN's sign alone. -/
theorem equalInputsGiveEqualOutputs : Obligations.EqualInputsGiveEqualOutputs := by
  intro i s t u first second
  refine ⟨fun plain => ?_, fun draws => ?_⟩
  · exact Host.Outcome.next.inj (second.symm.trans (exec_again_of_no_draw plain first))
  · obtain ⟨op, composite⟩ := exists_exec_eq_fp3Arith draws
    rw [composite] at first second
    exact fp3Arith_twice first second

end Sys2Proof.Machine
end

/-! The opcode map: the decoder and the encoder undo each other on the assigned `op` values (30_encoding.md R302 to R305). -/
section
namespace Sys2Proof.Machine

/-- One row of the opcode map: an assigned value is the encoding of the operation it selects, any other is reserved. -/
def rowAgrees (op : OpSel) : Bool :=
  match decode op with
  | .ok i => encode i == op
  | .error _ => decide (op ∈ reservedOps)

theorem rowAgrees_of_every_op : ∀ op : OpSel, rowAgrees op = true := by decide

/-- The encoder undoes the decoder, and `decode_encode` is the converse. -/
theorem decode_eq_ok_iff {op : OpSel} {i : Instr} : decode op = .ok i ↔ encode i = op := by
  constructor
  · intro h
    simpa [rowAgrees, h] using rowAgrees_of_every_op op
  · rintro rfl
    exact decode_encode i

theorem decode_of_mem_reservedOps : ∀ op ∈ reservedOps, decode op = .error (.reservedOp op) := by decide

theorem mem_reservedOps_of_decode_error {op : OpSel} {e : DecodeError} (h : decode op = .error e) : op ∈ reservedOps := by
  simpa [rowAgrees, h] using rowAgrees_of_every_op op

theorem encode_injective : Function.Injective encode := fun i _ same =>
  Except.ok.inj ((decode_encode i).symm.trans (decode_eq_ok_iff.mpr same.symm))

theorem encode_ne_of_mem_reservedOps {op : OpSel} (h : op ∈ reservedOps) (i : Instr) : encode i ≠ op := by
  intro encodes
  have refused := decode_of_mem_reservedOps op h
  rw [decode_eq_ok_iff.mpr encodes] at refused
  cases refused

/-- Settles O3. -/
theorem decodeOfEncodeIsIdentity : Obligations.DecodeOfEncodeIsIdentity :=
  ⟨decode_encode, fun _ _ same => encode_injective same⟩

/-- Settles O2: a value outside the reserved ones is not refused, and the operation it decodes to is the one it encodes. -/
theorem decoderIsTotalAndUnambiguous : Obligations.DecoderIsTotalAndUnambiguous := by
  refine ⟨rfl, fun op => ?_⟩
  by_cases reserved : op ∈ reservedOps
  · exact .inl ⟨reserved, decode_of_mem_reservedOps op reserved, encode_ne_of_mem_reservedOps reserved⟩
  · cases decoded : decode op with
    | error e => exact absurd (mem_reservedOps_of_decode_error decoded) reserved
    | ok i =>
      have encodes : encode i = op := decode_eq_ok_iff.mp decoded
      exact .inr ⟨reserved, i, rfl, fun _ => encodes ▸ encode_injective.eq_iff⟩

/-- The match mask 0x1F: a table word of at least five bits selects by its low five bits alone. -/
theorem opOfTableWord_eq_ofNat {nbits : Nat} (h : 5 ≤ nbits) (w : Nat) : opOfTableWord nbits w = BitVec.ofNat 5 w := by
  apply BitVec.eq_of_toNat_eq
  simp only [opOfTableWord, BitVec.toNat_ofNat]
  exact Nat.mod_mod_of_dvd w (Nat.pow_dvd_pow 2 h)

theorem decodeTableWord_mod_32 {nbits : Nat} (h : 5 ≤ nbits) (w : Nat) :
    decodeTableWord nbits w = decodeTableWord nbits (w % 32) := by
  have low : BitVec.ofNat 5 (w % 32) = BitVec.ofNat 5 w := BitVec.eq_of_toNat_eq (by simp)
  simp only [decodeTableWord, opOfTableWord_eq_ofNat h, low]

/-- Settles O1: the assigned rows are those of the encoder, the reserved ones the list of R304. -/
theorem opcodeMapWords : Obligations.OpcodeMapWords :=
  ⟨decode_encode .band, decode_encode .bor, decode_encode .bxor, decode_encode .bnot, decode_encode .bnand,
   decode_encode .badd, decode_encode .add4, decode_encode .sub4, decode_encode .not4, decode_encode .neg4,
   decode_encode .f3enc, decode_encode .f3dec, decode_encode .f3neg, decode_encode .f3eq, decode_encode .f3add,
   decode_encode .f3sub, decode_encode .f3mul, decode_encode .f3div, decode_encode .f3rem, decode_encode .f3one,
   decode_encode .f3zero, decode_of_mem_reservedOps, decodeTableWord_mod_32 (by decide)⟩

end Sys2Proof.Machine
end

/-! The outputs an operation does not drive (30_encoding.md R306). -/
section
namespace Sys2Proof.Machine

/-- The outputs with every port but those listed driven 0. -/
def Outputs.masked (o : Outputs) (ports : List OutPort) (fmt : NativeFmt) : Outputs where
  r    := if .r ∈ ports then o.r else 0#4
  cout := if .cout ∈ ports then o.cout else 0#1
  ovf  := if .ovf ∈ ports then o.ovf else 0#1
  z    := if .z ∈ ports then o.z else 0#3
  fo   := if .fo ∈ ports then o.fo else NativeWord.ofBits fmt 0
  eq   := if .eq ∈ ports then o.eq else 0#1
  err  := if .err ∈ ports then o.err else 0#1

theorem isZero_masked {port : OutPort} {ports : List OutPort} (h : port ∉ ports) (o : Outputs) (fmt : NativeFmt) :
    port.isZero (o.masked ports fmt) = true := by
  cases port <;> simp [OutPort.isZero, Outputs.masked, h]

theorem fp3Arith_out_masked {op : NativeWord → NativeWord → NativeResult} {s t : State}
    (done : fp3Arith op s = .next t) : t.out.masked [.z] s.cfg.fmt = t.out := by
  obtain ⟨w, -, run⟩ | ⟨-, run⟩ := fp3Arith_cases op s
  · obtain rfl := Host.Outcome.next.inj (run.symm.trans done)
    rfl
  · obtain rfl := Host.Outcome.next.inj (run.symm.trans done)
    rfl

/-- R306: masking the ports the rule of the operation does not name changes no output of it. -/
theorem exec_out_masked {i : Instr} {s t : State} (done : exec i s = .next t) :
    t.out.masked (portsDriven i) s.cfg.fmt = t.out := by
  cases i
  case f3add | f3sub | f3mul | f3div | f3rem => exact fp3Arith_out_masked done
  all_goals
    obtain rfl := Host.Outcome.next.inj done
    rfl

theorem raiseErr_out_masked (s : State) : (raiseErr s).out.masked [.err] s.cfg.fmt = (raiseErr s).out := rfl

theorem exec_err {i : Instr} {s t : State} (done : exec i s = .next t) : t.out.err = 0#1 := by
  obtain ⟨o, herr, -, rfl | ⟨-, rfl⟩⟩ := exec_next_cases done
  · exact herr
  · exact herr

/-- The inversion of a fault: the record holds the state the reserved-operation error leaves (R700). -/
theorem eq_raiseErr_of_step_fault {s t : State} {op : OpSel} (fault : step s = .fault (.illegalOp op t)) :
    t = raiseErr s := by
  obtain ⟨i, -, run⟩ | ⟨-, run⟩ := step_cases s
  · obtain ⟨u, done⟩ := exec_completes i s
    rw [run, done] at fault
    cases fault
  · rw [run] at fault
    cases fault
    rfl

/-- Settles O8: a port outside the mask is 0. -/
theorem undrivenOutputsAreZero : Obligations.UndrivenOutputsAreZero := by
  refine ⟨fun i s t done => ⟨exec_err done, fun port undriven => ?_⟩, fun s t op fault port notErr => ?_⟩
  · rw [← exec_out_masked done]
    exact isZero_masked undriven _ _
  · obtain rfl := eq_raiseErr_of_step_fault fault
    rw [← raiseErr_out_masked]
    exact isZero_masked (by simpa using notErr) _ _

end Sys2Proof.Machine
end

/-! The inputs an operation does not read (30_encoding.md R303). -/
section
namespace Sys2Proof.Machine

variable {s : State} {y : Inputs}

/-! Two sets of inputs agree on a port entry exactly when the operand taken from it is the same. -/

theorem agree_aBit_iff : InPort.aBit.agree s.inp y = true ↔ bitA (s.drive y) = bitA s := beq_iff_eq.trans eq_comm

theorem agree_bBit_iff : InPort.bBit.agree s.inp y = true ↔ bitB (s.drive y) = bitB s := beq_iff_eq.trans eq_comm

theorem agree_aNibble_iff : InPort.aNibble.agree s.inp y = true ↔ nibbleA (s.drive y) = nibbleA s :=
  beq_iff_eq.trans eq_comm

theorem agree_bNibble_iff : InPort.bNibble.agree s.inp y = true ↔ nibbleB (s.drive y) = nibbleB s :=
  beq_iff_eq.trans eq_comm

theorem agree_cin_iff : InPort.cin.agree s.inp y = true ↔ carryIn (s.drive y) = carryIn s := beq_iff_eq.trans eq_comm

theorem agree_p_iff : InPort.p.agree s.inp y = true ↔ y.p = s.inp.p := beq_iff_eq.trans eq_comm

theorem agree_q_iff : InPort.q.agree s.inp y = true ↔ y.q = s.inp.q := beq_iff_eq.trans eq_comm

theorem agree_f_iff : InPort.f.agree s.inp y = true ↔ nativeF (s.drive y) = nativeF s := beq_iff_eq.trans eq_comm

theorem fp3P_drive (hp : y.p = s.inp.p) : fp3P (s.drive y) = fp3P s := by simp [fp3P, hp]

theorem fp3Q_drive (hq : y.q = s.inp.q) : fp3Q (s.drive y) = fp3Q s := by simp [fp3Q, hq]

theorem fp3Equal_drive (hp : y.p = s.inp.p) (hq : y.q = s.inp.q) : fp3Equal (s.drive y) = fp3Equal s := by
  simp [fp3Equal, fp3P_drive hp, fp3Q_drive hq, hp, hq]

/-- The operation completes on both sets of inputs, and the two next states differ in the inputs alone. -/
def SameButInputs (f : State → Host.Outcome State Fault Refusal) (s : State) (y : Inputs) : Prop :=
  ∃ t : State, f s = .next t ∧ f (s.drive y) = .next { t with inp := y }

theorem sameButInputs_of_complete {f : State → Host.Outcome State Fault Refusal} {o : Outputs}
    (here : f s = complete s o) (there : f (s.drive y) = complete (s.drive y) o) : SameButInputs f s y :=
  ⟨_, here, there⟩

/-- The draw of a NaN sign reads no input port (R680), so it falls out the same on both sides. -/
theorem sameButInputs_fp3Arith (op : NativeWord → NativeWord → NativeResult) (hp : y.p = s.inp.p) (hq : y.q = s.inp.q) :
    SameButInputs (fp3Arith op) s y := by
  obtain ⟨w, number, run⟩ | ⟨nan, run⟩ := fp3Arith_cases op s
  · rw [← fp3P_drive hp, ← fp3Q_drive hq] at number
    exact ⟨_, run, fp3Arith_of_number number⟩
  · rw [← fp3P_drive hp, ← fp3Q_drive hq] at nan
    exact ⟨_, run, fp3Arith_of_nan nan⟩

theorem sameButInputs_exec {i : Instr} (agree : ∀ port ∈ portsRead i, port.agree s.inp y = true) :
    SameButInputs (exec i) s y := by
  cases i
  all_goals
    simp only [portsRead, List.mem_cons, List.not_mem_nil, or_false, forall_eq_or_imp, forall_eq, agree_aBit_iff,
      agree_bBit_iff, agree_aNibble_iff, agree_bNibble_iff, agree_cin_iff, agree_p_iff, agree_q_iff, agree_f_iff] at agree
  case f3add | f3sub | f3mul | f3div | f3rem => exact sameButInputs_fp3Arith _ agree.1 agree.2
  case f3one | f3zero => exact sameButInputs_of_complete rfl rfl
  case band | bor | bxor | bnand | sub4 =>
    obtain ⟨ha, hb⟩ := agree
    exact sameButInputs_of_complete rfl (by simp [exec, execBand, execBor, execBxor, execBnand, execSub4, ha, hb])
  case badd | add4 =>
    obtain ⟨ha, hb, hc⟩ := agree
    exact sameButInputs_of_complete rfl (by simp [exec, execBadd, execAdd4, ha, hb, hc])
  case bnot | not4 | neg4 | f3enc =>
    exact sameButInputs_of_complete rfl (by simp [exec, execBnot, execNot4, execNeg4, execF3Enc, agree])
  case f3dec | f3neg =>
    exact sameButInputs_of_complete rfl (by simp [exec, execF3Dec, execF3Neg, fp3P_drive agree])
  case f3eq =>
    obtain ⟨hp, hq⟩ := agree
    exact sameButInputs_of_complete rfl (by simp [exec, execF3Eq, fp3Equal_drive hp hq])

/-- Settles O9. -/
theorem unreadInputsHaveNoEffect : Obligations.UnreadInputsHaveNoEffect := fun _ _ _ agree => sameButInputs_exec agree

end Sys2Proof.Machine
end

/-! The ripple chain's sum and carry in closed form (42_ripple_carry_adder.md R452, R454). -/
section
namespace Sys2Proof.Machine

theorem eq_nib_of_uval {n : Nibble} {k : Int} (h : (uval n : Int) = k % 16) : n = nib k := by
  have same : uval n = uval (nib k) := by exact_mod_cast h.trans (uval_nib k).symm
  rw [uval_eq_toNat, uval_eq_toNat] at same
  exact BitVec.eq_of_toNat_eq same

/-- The chain's sum is any integer equal to the exact sum modulo 16. -/
theorem rippleAdd_sum_eq_nib {x y : Nibble} {c : Bit} {k : Int}
    (h : ((uval x : Int) + uval y + c.toNat) % 16 = k % 16) : (rippleAdd x y c).sum = nib k := by
  have add := rippleAdd_unsigned x y c
  have := uval_lt (rippleAdd x y c).sum
  exact eq_nib_of_uval (by omega)

theorem bit_eq_one_iff (v : Bit) : v = 1#1 ↔ v.toNat = 1 := by
  rw [← BitVec.toNat_inj]; rfl

/-- The carry out is the unsigned carry (R454). -/
theorem rippleAdd_c4_eq_one_iff (x y : Nibble) (c : Bit) :
    (rippleAdd x y c).c4 = 1#1 ↔ uval x + uval y + c.toNat ≥ 16 := by
  have add := rippleAdd_unsigned x y c
  have := uval_lt (rippleAdd x y c).sum
  have := (rippleAdd x y c).c4.isLt
  rw [bit_eq_one_iff]
  omega

/-- One SBC4: `x - y - (1 - c)`, where a borrow shows as the missing carry. -/
theorem rippleAdd_not (x y : Nibble) (c : Bit) :
    (uval (rippleAdd x (~~~y) c).sum : Int) + 16 * (rippleAdd x (~~~y) c).c4.toNat
      = (uval x : Int) - uval y + 15 + c.toNat := by
  have add := rippleAdd_unsigned x (~~~y) c
  rw [uval_not] at add
  have := uval_lt y
  omega

end Sys2Proof.Machine
end

/-! What single evaluations drive, for a host that reads their outputs. -/
section
namespace Sys2Proof.Machine

variable {s : State}

theorem evaluate_add4 (hop : s.inp.op = encode .add4) :
    (evaluate s).out.r = (rippleAdd s.inp.a s.inp.b s.inp.cin).sum
    ∧ (evaluate s).out.cout = (rippleAdd s.inp.a s.inp.b s.inp.cin).c4 := by
  rw [evaluate_eq (i := .add4) hop rfl]
  exact ⟨rfl, rfl⟩

theorem evaluate_not4_r (hop : s.inp.op = encode .not4) : (evaluate s).out.r = ~~~s.inp.a := by
  rw [evaluate_eq (i := .not4) hop rfl]; rfl

theorem evaluate_bor_r (hop : s.inp.op = encode .bor) : (evaluate s).out.r = bitResult (bitA s ||| bitB s) := by
  rw [evaluate_eq (i := .bor) hop rfl]

theorem evaluate_bnot_r (hop : s.inp.op = encode .bnot) : (evaluate s).out.r = bitResult (~~~(bitA s)) := by
  rw [evaluate_eq (i := .bnot) hop rfl]

theorem evaluate_f3enc_z (hop : s.inp.op = encode .f3enc) :
    (evaluate s).out.z = pattern s.cfg.f3Map (bucket s.inp.f) := by
  rw [evaluate_eq (i := .f3enc) hop rfl]; rfl

theorem evaluate_f3dec_fo (hop : s.inp.op = encode .f3dec) :
    (evaluate s).out.fo = native s.cfg.native (named s.cfg.f3Map s.inp.p) := by
  rw [evaluate_eq (i := .f3dec) hop rfl]; rfl

end Sys2Proof.Machine
end

/-! Subtraction of wide numbers, nibble by nibble (30_encoding.md R311, 42_ripple_carry_adder.md R470). -/
section
namespace Sys2Proof.Machine

/-- The first nibble of a chained subtract, and the state from which the rest is issued. -/
theorem exists_chainSub_cons (s : State) (c : Bit) (x y : Nibble) (rest : List (Nibble × Nibble)) :
    ∃ t : State, chainSub s c ((x, y) :: rest)
      = ((rippleAdd x (~~~y) c).sum :: (chainSub t (rippleAdd x (~~~y) c).c4 rest).1,
         (chainSub t (rippleAdd x (~~~y) c).c4 rest).2) := by
  have not : (issueNot4 s y).out.r = ~~~y := evaluate_not4_r rfl
  have add : ∀ u : State, (issueAdd4 u x (~~~y) c).out.r = (rippleAdd x (~~~y) c).sum
      ∧ (issueAdd4 u x (~~~y) c).out.cout = (rippleAdd x (~~~y) c).c4 := fun _ => evaluate_add4 rfl
  exact ⟨issueAdd4 (issueNot4 s y) x (~~~y) c, by simp only [chainSub, not, add]⟩

/-- Settles O29, by induction on the nibble pairs, for every state and every carry in. -/
theorem chainedSbc4SubtractsWideNumbers : Obligations.ChainedSbc4SubtractsWideNumbers := by
  intro s c ps
  induction ps generalizing s c with
  | nil => simp [chainSub, nibblesValue]
  | cons xy rest ih =>
    obtain ⟨x, y⟩ := xy
    obtain ⟨t, split⟩ := exists_chainSub_cons s c x y rest
    have head := rippleAdd_not x y c
    obtain ⟨len, tail⟩ := ih t (rippleAdd x (~~~y) c).c4
    rw [split]
    refine ⟨congrArg (· + 1) len, ?_⟩
    simp only [nibblesValue, List.map_cons, List.length_cons, pow_succ]
    push_cast
    linear_combination head + 16 * tail

end Sys2Proof.Machine
end

/-! The pseudo-operations of 30_encoding.md R311. -/
section
namespace Sys2Proof.Machine

theorem nibbleBit_bitResult : ∀ v : Bit, nibbleBit (bitResult v) 0 = v := by decide

section
variable {s : State} {e : HostEval} {x : Inputs}

theorem programResults_one (h : driven s.cfg.fmt [] e = some x) :
    programResults s [e] = .ok [(evaluate (s.drive x)).out] := by
  rw [programResults, runProgram_cons h, List.nil_append, runProgram]

/-- The second of two evaluations is issued from the state `t` the first leaves, with the outputs of `t` to refer to. -/
theorem exists_programResults_two (h : driven s.cfg.fmt [] e = some x) :
    ∃ t : State, t.cfg = s.cfg ∧ t.out = (evaluate (s.drive x)).out
      ∧ ∀ {e' : HostEval} {x' : Inputs}, driven t.cfg.fmt [t.out] e' = some x' →
          programResults s [e, e'] = .ok [t.out, (evaluate (t.drive x')).out] := by
  refine ⟨evaluate (s.drive x), evaluate_cfg _, rfl, fun h' => ?_⟩
  rw [programResults, runProgram_cons h, List.nil_append, runProgram_cons h', List.singleton_append, runProgram]

end

theorem inc4_result (s : State) (x : Nibble) :
    ∃ o : Outputs, programResults s (inc4 (.lit x)) = .ok [o] ∧ o.r = nib (uval x + 1) := by
  refine ⟨_, programResults_one rfl, (evaluate_add4 rfl).1.trans (rippleAdd_sum_eq_nib ?_)⟩
  simp [show uval 0b0000#4 = 0 from rfl]

theorem dec4_result (s : State) (x : Nibble) :
    ∃ o : Outputs, programResults s (dec4 (.lit x)) = .ok [o] ∧ o.r = nib (uval x + 15) := by
  refine ⟨_, programResults_one rfl, (evaluate_add4 rfl).1.trans (rippleAdd_sum_eq_nib ?_)⟩
  simp [show uval 0b1111#4 = 15 from rfl]

theorem sbc4_result (s : State) (x y : Nibble) (c : Bit) :
    ∃ o o' : Outputs, programResults s (sbc4 0 (.lit x) (.lit y) (.lit c)) = .ok [o, o']
      ∧ o.r = ~~~y ∧ o'.r = nib ((uval x : Int) - uval y - 1 + c.toNat)
      ∧ (o'.cout = 1#1 ↔ uval x + c.toNat ≥ uval y + 1) := by
  have complement := uval_not y
  have bound := uval_lt y
  obtain ⟨t, -, first, run⟩ := exists_programResults_two (s := s) (e := { op := encode .not4, a := .lit y }) rfl
  have hr : t.out.r = ~~~y := first ▸ evaluate_not4_r rfl
  refine ⟨_, _, run rfl, hr, ?_, ?_⟩
  · rw [(evaluate_add4 rfl).1]
    simp only [drive_inp, hr]
    exact rippleAdd_sum_eq_nib (by omega)
  · rw [(evaluate_add4 rfl).2]
    simp only [drive_inp, hr, rippleAdd_c4_eq_one_iff]
    omega

theorem bnor_result (s : State) (x y : Nibble) :
    ∃ o o' : Outputs, programResults s (bnor 0 (.lit x) (.lit y)) = .ok [o, o']
      ∧ o'.r = 0b000#3 ++ ~~~(x.extractLsb' 0 1 ||| y.extractLsb' 0 1) := by
  obtain ⟨t, -, first, run⟩ := exists_programResults_two (s := s) (e := { op := encode .bor, a := .lit x, b := .lit y }) rfl
  have hr : t.out.r = bitResult (nibbleBit x 0 ||| nibbleBit y 0) := first ▸ evaluate_bor_r rfl
  refine ⟨_, _, run rfl, ?_⟩
  rw [evaluate_bnot_r rfl]
  simp only [bitA, drive_inp, hr, nibbleBit_bitResult]
  rfl

theorem f3round_result {s : State} (h : s.wf = true) (w : NativeWord) :
    ∃ o o' : Outputs, programResults s (f3round 0 (.lit w)) = .ok [o, o']
      ∧ o.z = pattern s.cfg.f3Map (bucket w) ∧ o'.fo = native s.cfg.native (bucket w) := by
  obtain ⟨-, hmap⟩ : s.cfg.native.wf = true ∧ s.cfg.f3Map.wf = true := by
    simpa [State.wf, Config.wf] using h
  obtain ⟨t, hcfg, first, run⟩ := exists_programResults_two (s := s) (e := { op := encode .f3enc, f := .lit w }) rfl
  have hz : t.out.z = pattern s.cfg.f3Map (bucket w) := first ▸ evaluate_f3enc_z rfl
  refine ⟨_, _, run rfl, hz, ?_⟩
  rw [evaluate_f3dec_fo rfl]
  simp only [drive_cfg, drive_inp, hcfg, hz, named_pattern hmap]

/-- Settles O54, one pseudo-operation at a time. -/
theorem pseudoOperationResults : Obligations.PseudoOperationResults := fun s x y c w =>
  ⟨inc4_result s x, dec4_result s x, sbc4_result s x y c, bnor_result s x y, fun h => f3round_result h w⟩

end Sys2Proof.Machine
end

/-! The gates and the full adder of single_bit_alu (41_single_bit_alu.md R400 to R412), and what their evaluations drive. -/
section
namespace Sys2Proof.Machine

/-- Settles O16: each gate's rule is that gate of `a[0]` and `b[0]`, driven on `r` alone. -/
theorem singleBitGateResults : Obligations.SingleBitGateResults := fun _ => ⟨rfl, rfl, rfl, rfl, rfl⟩

/-- Settles O17, with the count of the full adder for the integer identity. -/
theorem baddIsTheFullAdder : Obligations.BaddIsTheFullAdder := fun s =>
  ⟨rfl, fullAdder_count (bitA s) (bitB s) s.inp.cin⟩

section
variable {s : State}

theorem evaluate_band_r (hop : s.inp.op = encode .band) : (evaluate s).out.r = bitResult (bitA s &&& bitB s) := by
  rw [evaluate_eq (i := .band) hop rfl]

theorem evaluate_bxor_r (hop : s.inp.op = encode .bxor) : (evaluate s).out.r = bitResult (bitA s ^^^ bitB s) := by
  rw [evaluate_eq (i := .bxor) hop rfl]

theorem evaluate_bnand_r (hop : s.inp.op = encode .bnand) : (evaluate s).out.r = bitResult (~~~(bitA s &&& bitB s)) := by
  rw [evaluate_eq (i := .bnand) hop rfl]

theorem evaluate_badd (hop : s.inp.op = encode .badd) :
    (evaluate s).out.r = bitResult (fullAdder (bitA s) (bitB s) s.inp.cin).1
    ∧ (evaluate s).out.cout = (fullAdder (bitA s) (bitB s) s.inp.cin).2 := by
  rw [evaluate_eq (i := .badd) hop rfl]
  exact ⟨rfl, rfl⟩

/-- BADD on bits that the host drives as nibbles. -/
theorem evaluate_badd_of_bits {u v : Bit} (hop : s.inp.op = encode .badd) (ha : s.inp.a = bitResult u)
    (hb : s.inp.b = bitResult v) :
    (evaluate s).out.r = bitResult (fullAdder u v s.inp.cin).1
    ∧ (evaluate s).out.cout = (fullAdder u v s.inp.cin).2 := by
  have drives := evaluate_badd hop
  rwa [bitA, bitB, ha, hb, nibbleBit_bitResult, nibbleBit_bitResult] at drives

theorem evaluate_add4_ovf (hop : s.inp.op = encode .add4) :
    (evaluate s).out.ovf = overflow (rippleAdd s.inp.a s.inp.b s.inp.cin) := by
  rw [evaluate_eq (i := .add4) hop rfl]; rfl

end

theorem xor_eq_or_and_nand : ∀ u v : Bit, u ^^^ v = (u ||| v) &&& ~~~(u &&& v) := by decide

theorem bit_not_ne : ∀ v : Bit, ~~~v ≠ v := by decide

theorem bitResult_injective : Function.Injective bitResult :=
  Function.LeftInverse.injective (g := (nibbleBit · 0)) nibbleBit_bitResult

/-- Settles O18: the three expressions are read off the ports gate by gate, and compared as functions of two bits. -/
theorem gateIdentitiesHold : Obligations.GateIdentitiesHold := by
  intro c n x gate notA notB
  have band (a b : Nibble) : gate .band a b = bitResult (nibbleBit a 0 &&& nibbleBit b 0) := evaluate_band_r rfl
  have bor (a b : Nibble) : gate .bor a b = bitResult (nibbleBit a 0 ||| nibbleBit b 0) := evaluate_bor_r rfl
  have bxor (a b : Nibble) : gate .bxor a b = bitResult (nibbleBit a 0 ^^^ nibbleBit b 0) := evaluate_bxor_r rfl
  have bnot (a b : Nibble) : gate .bnot a b = bitResult (~~~nibbleBit a 0) := evaluate_bnot_r rfl
  have bnand (a b : Nibble) : gate .bnand a b = bitResult (~~~(nibbleBit a 0 &&& nibbleBit b 0)) := evaluate_bnand_r rfl
  have or_eq_nand : gate .bor x.a x.b = gate .bnand notA notB := by
    simp only [notA, notB, bor, bnand, bnot, nibbleBit_bitResult, BitVec.not_and, BitVec.not_not]
  refine ⟨or_eq_nand, ?_, ?_⟩
  · simp only [bxor, band, bor, bnand, nibbleBit_bitResult, xor_eq_or_and_nand]
  · rw [← or_eq_nand, bnot, bor, nibbleBit_bitResult]
    exact bitResult_injective.ne (bit_not_ne _)

theorem bitLt_iff (x y : Bit) : bitLt x y = true ↔ x = 0#1 ∧ y = 1#1 := by
  rw [bitLt, Bool.and_eq_true, beq_iff_eq, beq_iff_eq]

theorem bitLt_trichotomy : ∀ x y : Bit, bitLt x y = true ∨ x = y ∨ bitLt y x = true := by decide

/-- Settles O19. -/
theorem bitOrderIsZeroBelowOne : Obligations.BitOrderIsZeroBelowOne :=
  ⟨(bitLt_iff _ _).2 ⟨rfl, rfl⟩, fun x y => ⟨bitLt_iff x y, bitLt_trichotomy x y⟩⟩

/-- Settles O27: the four evaluations are the four stages of the ripple chain, each carry driven onto the next `cin`. -/
theorem add4IsFourChainedBadds : Obligations.Add4IsFourChainedBadds := by
  intro c n x badd s0 s1 s2 s3 sum
  have stage (k : Nat) (carry : Bit) :
      (badd k carry).r = bitResult (fullAdder (nibbleBit x.a k) (nibbleBit x.b k) carry).1
      ∧ (badd k carry).cout = (fullAdder (nibbleBit x.a k) (nibbleBit x.b k) carry).2 :=
    evaluate_badd_of_bits rfl rfl rfl
  have low (k : Nat) (carry : Bit) :
      (badd k carry).r.extractLsb' 0 1 = (fullAdder (nibbleBit x.a k) (nibbleBit x.b k) carry).1 := by
    rw [(stage k carry).1]; exact nibbleBit_bitResult _
  obtain ⟨r, cout⟩ : sum.r = (rippleAdd x.a x.b x.cin).sum ∧ sum.cout = (rippleAdd x.a x.b x.cin).c4 := evaluate_add4 rfl
  have ovf : sum.ovf = overflow (rippleAdd x.a x.b x.cin) := evaluate_add4_ovf rfl
  simp only [r, cout, ovf, s3, s2, s1, s0, low, (stage _ _).2]
  exact ⟨rfl, rfl, rfl⟩

end Sys2Proof.Machine
end

/-! What ADD4 and SUB4 drive, and their laws as integers (42_ripple_carry_adder.md R450 to R462). -/
section
namespace Sys2Proof.Machine

theorem exec_add4 (s : State) : exec .add4 s = completeRipple s (rippleAdd s.inp.a s.inp.b s.inp.cin) := rfl

theorem exec_sub4 (s : State) : exec .sub4 s = completeRipple s (rippleAdd s.inp.a (~~~s.inp.b) 1#1) := rfl

theorem exec_neg4 (s : State) : exec .neg4 s = completeRipple s (rippleAdd (~~~s.inp.a) 0b0000#4 1#1) := rfl

theorem sval_not : ∀ n : Nibble, sval (~~~n) = -sval n - 1 := by decide

/-- The overflow output compares the exact signed result `k` with the range of a nibble (R456). -/
theorem overflow_rippleAdd_eq_one_iff {x y : Nibble} {c : Bit} {k : Int} (result : sval x + sval y + c.toNat = k) :
    overflow (rippleAdd x y c) = 1#1 ↔ k < -8 ∨ 7 < k :=
  result ▸ (rippleAdd_signed x y c).1

/-- Complementing `y` and driving carry-in 1 subtracts: `~y` is `-y - 1` (R460, R461). -/
theorem sval_add_sval_not_add_one (x y : Nibble) : sval x + sval (~~~y) + (1#1).toNat = sval x - sval y := by
  have one : ((1#1).toNat : Int) = 1 := rfl
  rw [sval_not, one]
  ring

/-- A sum of two nibbles and a carry is at most one wrap away from its signed reading (R453). -/
theorem sval_nib_wraps {u : Int} (lower : -16 ≤ u) (upper : u ≤ 15) :
    sval (nib u) = u ∨ sval (nib u) = u + 16 ∨ sval (nib u) = u - 16 := by
  have congruent : sval (nib u) % 16 = u % 16 := by rw [sval_nib]; exact Int.bmod_emod
  obtain ⟨_, _⟩ := sval_bounds (nib u)
  omega

/-- Settles O20: the chain of the model is the four stages, in that order. -/
theorem add4RippleChain : Obligations.Add4RippleChain := exec_add4

/-- Settles O21, from the chain's sum with the carry out as a fifth bit. -/
theorem add4UnsignedLaw : Obligations.Add4UnsignedLaw := by
  intro s t
  have add := rippleAdd_unsigned s.inp.a s.inp.b s.inp.cin
  have := uval_lt s.inp.a
  have := uval_lt s.inp.b
  have := uval_lt (rippleAdd s.inp.a s.inp.b s.inp.cin).sum
  have := s.inp.cin.isLt
  refine ⟨by omega, _, exec_add4 s, ?_, rippleAdd_c4_eq_one_iff _ _ _⟩
  change uval (rippleAdd s.inp.a s.inp.b s.inp.cin).sum = t % 16
  omega

/-- Settles O22: the sum is `nib` of the exact signed sum, which is at most one wrap away from the range of a nibble. -/
theorem add4SignedLaw : Obligations.Add4SignedLaw := by
  intro s u
  obtain ⟨_, _⟩ := sval_bounds s.inp.a
  obtain ⟨_, _⟩ := sval_bounds s.inp.b
  have := s.inp.cin.isLt
  have lower : -16 ≤ u := by omega
  have upper : u ≤ 15 := by omega
  have sum : (rippleAdd s.inp.a s.inp.b s.inp.cin).sum = nib u := (rippleAdd_signed _ _ _).2
  obtain ⟨rangeLower, rangeUpper⟩ := sval_bounds (rippleAdd s.inp.a s.inp.b s.inp.cin).sum
  exact ⟨lower, upper, _, exec_add4 s, sum, rangeLower, rangeUpper, sum ▸ sval_nib_wraps lower upper⟩

/-- Settles O23: each operation's exact signed result is the signed sum of what it feeds to the chain. -/
theorem overflowMeansOutOfRange : Obligations.OverflowMeansOutOfRange := by
  intro s outside
  have negated : sval (~~~s.inp.a) + sval 0b0000#4 + (1#1).toNat = -sval s.inp.a := by
    rw [add_comm (sval (~~~s.inp.a)), sval_add_sval_not_add_one]
    exact zero_sub _
  exact ⟨⟨_, exec_add4 s, rfl, overflow_rippleAdd_eq_one_iff rfl⟩,
    ⟨_, exec_sub4 s, rfl, overflow_rippleAdd_eq_one_iff (sval_add_sval_not_add_one _ _)⟩,
    ⟨_, exec_neg4 s, rfl, overflow_rippleAdd_eq_one_iff negated⟩⟩

/-- Settles O24: the first clause is the unsigned carry; the count runs over the 256 pairs of the chain itself. -/
theorem carryIsNotOverflow : Obligations.CarryIsNotOverflow := by
  intro s add nibbles pairs
  have drives (x y : Nibble) : (add x y).r = (rippleAdd x y 0#1).sum ∧ (add x y).cout = (rippleAdd x y 0#1).c4 :=
    evaluate_add4 rfl
  refine ⟨fun x y => ?_, ?_, (drives _ _).1.trans rfl, (drives _ _).2.trans rfl⟩
  · rw [(drives x y).2]
    exact rippleAdd_c4_eq_one_iff x y 0#1
  · simp only [(drives _ _).2]
    decide +kernel

/-- Settles O25: the operands the host drives are the ones SUB4 feeds to the chain. -/
theorem sub4IsAddOfComplement : Obligations.Sub4IsAddOfComplement := fun s => ⟨_, exec_add4 _, exec_sub4 s, rfl⟩

/-- Settles O26: unsigned from the subtracting chain with carry-in 1, signed from the exact signed difference. -/
theorem sub4Laws : Obligations.Sub4Laws := by
  intro s
  have difference := rippleAdd_not s.inp.a s.inp.b 1#1
  have signed := sval_add_sval_not_add_one s.inp.a s.inp.b
  have := uval_lt (rippleAdd s.inp.a (~~~s.inp.b) 1#1).sum
  have := uval_lt s.inp.b
  have one : (1#1).toNat = 1 := rfl
  refine ⟨_, exec_sub4 s, ?_, ?_, ?_, overflow_rippleAdd_eq_one_iff signed⟩
  · change (uval (rippleAdd s.inp.a (~~~s.inp.b) 1#1).sum : Int) = _
    omega
  · exact signed ▸ (rippleAdd_signed _ _ _).2
  · refine (rippleAdd_c4_eq_one_iff _ _ _).trans ?_
    rw [uval_not]
    omega

end Sys2Proof.Machine
end

/-! Addition of wide numbers, nibble by nibble (42_ripple_carry_adder.md R470). -/
section
namespace Sys2Proof.Machine

/-- The first nibble of a chained add, and the rest issued from the state it leaves with its carry. -/
theorem chainAdd_cons (s : State) (c : Bit) (x y : Nibble) (rest : List (Nibble × Nibble)) :
    chainAdd s c ((x, y) :: rest)
      = ((rippleAdd x y c).sum :: (chainAdd (issueAdd4 s x y c) (rippleAdd x y c).c4 rest).1,
         (chainAdd (issueAdd4 s x y c) (rippleAdd x y c).c4 rest).2) := by
  obtain ⟨r, cout⟩ : (issueAdd4 s x y c).out.r = (rippleAdd x y c).sum
      ∧ (issueAdd4 s x y c).out.cout = (rippleAdd x y c).c4 := evaluate_add4 rfl
  simp only [chainAdd, r, cout]

/-- Settles O28, by induction on the nibble pairs, for every state and every carry in. -/
theorem chainedAdd4AddsWideNumbers : Obligations.ChainedAdd4AddsWideNumbers := by
  intro s c ps
  induction ps generalizing s c with
  | nil => simp [chainAdd, nibblesValue]
  | cons xy rest ih =>
    obtain ⟨x, y⟩ := xy
    have head := rippleAdd_unsigned x y c
    obtain ⟨len, tail⟩ := ih (issueAdd4 s x y c) (rippleAdd x y c).c4
    rw [chainAdd_cons]
    refine ⟨congrArg (· + 1) len, ?_⟩
    simp only [nibblesValue, List.map_cons, List.length_cons, pow_succ]
    linear_combination head + 16 * tail

end Sys2Proof.Machine
end

/-! What NOT4 and NEG4 drive, and the laws of negation (43_negator.md R500 to R511). -/
section
namespace Sys2Proof.Machine

theorem exec_not4 (s : State) :
    exec .not4 s = .next { s with out := { Outputs.zero s.cfg.fmt with r := ~~~s.inp.a } } := rfl

theorem fullAdder_comm : ∀ x y c : Bit, fullAdder x y c = fullAdder y x c := by decide

/-- The chain takes its operands in either order, carries included: each of its four full adders does (R450). -/
theorem rippleAdd_comm (x y : Nibble) (c : Bit) : rippleAdd x y c = rippleAdd y x c := by
  simp only [rippleAdd, fullAdder_comm (nibbleBit x _)]

/-- NEG4 is SUB4 from zero: the two feed the chain the same operands in swapped order (R511). -/
theorem exec_neg4_of_exec_sub4_zero {s u : State}
    (sub : exec .sub4 (s.drive { s.inp with a := 0b0000#4, b := s.inp.a }) = .next u) :
    exec .neg4 s = .next { s with out := u.out } := by
  rw [exec_sub4] at sub
  cases sub
  rw [exec_neg4, rippleAdd_comm]
  rfl

theorem uval_eq_zero_iff : ∀ n : Nibble, uval n = 0 ↔ n = 0b0000#4 := by decide

/-- 1000 is the one nibble that reads as -8, the value whose negation is outside [-8, 7] (R511). -/
theorem sval_eq_neg_eight_iff : ∀ n : Nibble, sval n = -8 ↔ n = 0b1000#4 := by decide

/-- Settles O32: the laws of SUB4 at minuend 0000, on the outputs it shares with NEG4. -/
theorem neg4Laws : Obligations.Neg4Laws := by
  intro s
  obtain ⟨u, sub, unsigned, signed, cout, ovf⟩ := sub4Laws (s.drive { s.inp with a := 0b0000#4, b := s.inp.a })
  have uval_zero : uval 0b0000#4 = 0 := rfl
  have sval_zero : sval 0b0000#4 = 0 := rfl
  simp only [drive_inp, uval_zero, sval_zero, zero_sub] at unsigned signed cout ovf
  refine ⟨_, u, exec_neg4_of_exec_sub4_zero sub, ?_, signed, ?_, ?_, sub, rfl⟩
  · change uval u.out.r = _
    have := uval_lt s.inp.a
    omega
  · rw [← uval_eq_zero_iff]
    exact cout.trans Nat.le_zero
  · obtain ⟨_, _⟩ := sval_bounds s.inp.a
    rw [← sval_eq_neg_eight_iff]
    refine ovf.trans ?_
    omega

/-- Settles O30: the second evaluation drives the complement of the complement. -/
theorem not4FlipsEveryBit : Obligations.Not4FlipsEveryBit := by
  intro s
  refine ⟨exec_not4 s, sval_not s.inp.a, ?_⟩
  rw [exec_not4, drive_inp, BitVec.not_not]
  rfl

/-- Settles O31: the operands the host drives are the ones NEG4 feeds to the chain. -/
theorem neg4IsNot4PlusOne : Obligations.Neg4IsNot4PlusOne := fun s => ⟨_, exec_add4 _, exec_neg4 s, rfl⟩

end Sys2Proof.Machine
end

/-! The magnitude bits of a native word order as the magnitudes do, around zero and around 1.0 (44_fp3_encoder.md R551). -/
section
namespace Sys2Proof.Machine

variable {w : NativeWord}

theorem oneMag_eq (fmt : NativeFmt) : oneMag fmt = bias fmt * 2 ^ fmt.fracBits := by cases fmt <;> rfl

theorem bias_pos (fmt : NativeFmt) : 0 < bias fmt := by cases fmt <;> decide

theorem scale_eq (fmt : NativeFmt) : scale fmt = 2 ^ fmt.fracBits * 2 ^ (bias fmt - 1) := by
  have := bias_pos fmt
  rw [scale, ← pow_add]
  congr 1
  omega

/-- The magnitude lies below the next power of two; the subnormals lie below that of exponent field 0. -/
theorem scaledMag_lt : scaledMag w < 2 ^ w.fmt.fracBits * 2 ^ expField w := by
  obtain ⟨-, frac, -⟩ := magBits_eq_fields w
  rw [scaledMag]
  split
  next subnormal => simpa [subnormal] using frac
  next normal =>
    obtain ⟨e, he⟩ := Nat.exists_eq_succ_of_ne_zero normal
    rw [he, Nat.succ_sub_one, pow_succ', ← mul_assoc]
    exact Nat.mul_lt_mul_of_pos_right (by omega) (by positivity)

theorem scaledMag_of_normal (normal : 0 < expField w) :
    scaledMag w = (2 ^ w.fmt.fracBits + fracField w) * 2 ^ (expField w - 1) :=
  if_neg normal.ne'

/-- R551's fact from general knowledge, at 1.0. -/
theorem compare_scaledMag_scale : compare (scaledMag w) (scale w.fmt) = compare (magBits w) (oneMag w.fmt) := by
  obtain ⟨mag, frac, -⟩ := magBits_eq_fields w
  have bpos := bias_pos w.fmt
  rcases lt_trichotomy (expField w) (bias w.fmt) with below | equal | above
  · have real : scaledMag w < scale w.fmt :=
      calc scaledMag w < 2 ^ w.fmt.fracBits * 2 ^ expField w := scaledMag_lt
        _ ≤ 2 ^ w.fmt.fracBits * 2 ^ (bias w.fmt - 1) :=
          Nat.mul_le_mul_left _ (Nat.pow_le_pow_right two_pos (Nat.le_sub_one_of_lt below))
        _ = scale w.fmt := (scale_eq _).symm
    have bits : magBits w < oneMag w.fmt :=
      calc magBits w < (expField w + 1) * 2 ^ w.fmt.fracBits := by rw [add_one_mul]; omega
        _ ≤ bias w.fmt * 2 ^ w.fmt.fracBits := Nat.mul_le_mul_right _ below
        _ = oneMag w.fmt := (oneMag_eq _).symm
    rw [compare_lt_iff_lt.mpr real, compare_lt_iff_lt.mpr bits]
  · have real : scaledMag w = scale w.fmt + fracField w * 2 ^ (bias w.fmt - 1) := by
      rw [scaledMag_of_normal (by omega), equal, add_mul, scale_eq]
    have bits : magBits w = oneMag w.fmt + fracField w := by rw [mag, equal, oneMag_eq]
    rw [real, bits]
    rcases Nat.eq_zero_or_pos (fracField w) with one | more
    · simp [one]
    · rw [compare_gt_iff_gt.mpr (Nat.lt_add_of_pos_right (by positivity)),
        compare_gt_iff_gt.mpr (Nat.lt_add_of_pos_right more)]
  · have real : scale w.fmt < scaledMag w := by
      rw [scaledMag_of_normal (by omega), scale_eq]
      exact Nat.mul_lt_mul_of_le_of_lt (Nat.le_add_right ..)
        (Nat.pow_lt_pow_right Nat.one_lt_two (by omega)) (by positivity)
    have bits : oneMag w.fmt < magBits w := by
      rw [oneMag_eq, mag]
      exact Nat.lt_add_right _ (Nat.mul_lt_mul_of_pos_right above (by positivity))
    rw [compare_gt_iff_gt.mpr real, compare_gt_iff_gt.mpr bits]

theorem scaledMag_lt_scale_iff : scaledMag w < scale w.fmt ↔ magBits w < oneMag w.fmt := by
  rw [← compare_lt_iff_lt, compare_scaledMag_scale, compare_lt_iff_lt]

theorem scaledMag_eq_scale_iff : scaledMag w = scale w.fmt ↔ magBits w = oneMag w.fmt := by
  rw [← compare_eq_iff_eq, compare_scaledMag_scale, compare_eq_iff_eq]

theorem scaledMag_of_magBits_eq_zero (zero : magBits w = 0) : scaledMag w = 0 := by
  obtain ⟨mag, -, -⟩ := magBits_eq_fields w
  obtain ⟨shifted, frac⟩ := Nat.add_eq_zero_iff.mp (mag.symm.trans zero)
  have exponent : expField w = 0 := (Nat.mul_eq_zero.mp shifted).resolve_right (by positivity)
  rw [scaledMag, if_pos exponent, frac]

theorem magBits_lt_infMag_of_isFinite (finite : isFinite w = true) : magBits w < infMag w.fmt := by
  obtain ⟨inf, nan⟩ := isInf_isNaN_iff_magBits w
  have exponent : expField w ≠ emax w.fmt := by simpa [isFinite] using finite
  have notInf : magBits w ≠ infMag w.fmt := fun h => by simpa [isInf, exponent] using inf.mpr h
  have notNaN : ¬ infMag w.fmt < magBits w := fun h => by simpa [isNaN, exponent] using nan.mpr h
  omega

theorem one_lt_abs_realOf_iff : 1 < |realOf w| ↔ oneMag w.fmt < magBits w := by
  rw [abs_realOf, one_lt_div (scale_pos _), Nat.cast_lt, ← compare_gt_iff_gt, compare_scaledMag_scale, compare_gt_iff_gt]

theorem abs_realOf_lt_one_iff : |realOf w| < 1 ↔ magBits w < oneMag w.fmt := by
  rw [abs_realOf, div_lt_one (scale_pos _), Nat.cast_lt, scaledMag_lt_scale_iff]

theorem magBits_pos_of_abs_realOf_pos (positive : 0 < |realOf w|) : 0 < magBits w := by
  refine Nat.pos_of_ne_zero fun zero => ?_
  simp [abs_realOf, scaledMag_of_magBits_eq_zero zero] at positive

end Sys2Proof.Machine
end

/-! The bucket of each range of magnitude bits, and what F3ENC drives (44_fp3_encoder.md R550 to R555). -/
section
namespace Sys2Proof.Machine

section
variable {w : NativeWord}

/-- The zero of a sign. -/
def zeroBucket (sgn : Bit) : Fp3 := if sgn = 1#1 then .negZero else .posZero

/-- The one of a sign. -/
def oneBucket (sgn : Bit) : Fp3 := if sgn = 1#1 then .negOne else .posOne

theorem bucket_of_zero (zero : magBits w = 0) : bucket w = zeroBucket (signBit w) := by
  have notInf : isInf w = false := by
    rw [Bool.eq_false_iff, ne_eq, (isInf_isNaN_iff_magBits w).1, zero]
    cases w.fmt <;> decide
  have zeroTest : isZero w = true := by simp [isZero, zero]
  rcases signBit_cases w with s | s <;> simp [bucket, zeroBucket, notInf, zeroTest, s]

theorem bucket_of_infinite (infinite : magBits w = infMag w.fmt) : bucket w = infBucket (signBit w) := by
  have inf : isInf w = true := (isInf_isNaN_iff_magBits w).1.mpr infinite
  rcases signBit_cases w with s | s <;> simp [bucket, infBucket, inf, s]

/-- The rules of R550 left for a finite nonzero word compare its magnitude with 1, whichever its sign. -/
theorem bucket_of_finite_nonzero (nonzero : 0 < magBits w) (finite : magBits w < infMag w.fmt) :
    bucket w = if scaledMag w = scale w.fmt then oneBucket (signBit w)
      else if scale w.fmt < scaledMag w then infBucket (signBit w) else nanBucket (signBit w) := by
  obtain ⟨inf, nan⟩ := isInf_isNaN_iff_magBits w
  have notInf : isInf w = false := by rw [Bool.eq_false_iff, ne_eq, inf]; omega
  have notNaN : isNaN w = false := by rw [Bool.eq_false_iff, ne_eq, nan]; omega
  have notZero : isZero w = false := by simp [isZero, nonzero.ne']
  have spos : 0 < scale w.fmt := by rw [scale]; positivity
  rcases signBit_cases w with s | s
  · have notNegOne : (scaledMag w : Int) ≠ -scale w.fmt := by omega
    have notBelow : ¬ (scaledMag w : Int) < -scale w.fmt := by omega
    simp [bucket, notInf, notNaN, notZero, scaledReal, s, oneBucket, infBucket, nanBucket, notNegOne, notBelow]
  · have notOne : -(scaledMag w : Int) ≠ scale w.fmt := by omega
    have notAbove : ¬ (scale w.fmt : Int) < -(scaledMag w : Int) := by omega
    simp [bucket, notInf, notNaN, notZero, scaledReal, s, oneBucket, infBucket, nanBucket, notOne, notAbove]

theorem bucket_of_fraction (nonzero : 0 < magBits w) (below : magBits w < oneMag w.fmt) :
    bucket w = nanBucket (signBit w) := by
  have real := scaledMag_lt_scale_iff.mpr below
  have finite : magBits w < infMag w.fmt := below.trans (by cases w.fmt <;> decide)
  rw [bucket_of_finite_nonzero nonzero finite, if_neg real.ne, if_neg real.not_gt]

theorem bucket_of_one (one : magBits w = oneMag w.fmt) : bucket w = oneBucket (signBit w) := by
  have nonzero : 0 < magBits w := one ▸ (by cases w.fmt <;> decide)
  have finite : magBits w < infMag w.fmt := one ▸ (by cases w.fmt <;> decide)
  rw [bucket_of_finite_nonzero nonzero finite, if_pos (scaledMag_eq_scale_iff.mpr one)]

theorem bucket_of_large (above : oneMag w.fmt < magBits w) (finite : magBits w < infMag w.fmt) :
    bucket w = infBucket (signBit w) := by
  have notOne := scaledMag_eq_scale_iff.not.mpr above.ne'
  have notBelow := scaledMag_lt_scale_iff.not.mpr above.not_gt
  rw [bucket_of_finite_nonzero (Nat.zero_lt_of_lt above) finite, if_neg notOne, if_pos (by omega)]

/-- R551: the two low bits of the default pattern are those of the range that the magnitude bits fall in. -/
theorem named_encoderBitForm (w : NativeWord) : named defaultF3Map (encoderBitForm w) = bucket w := by
  have zero : ∀ s : Bit, named defaultF3Map (s ++ 0b00#2) = zeroBucket s := by decide
  have one : ∀ s : Bit, named defaultF3Map (s ++ 0b01#2) = oneBucket s := by decide
  have infinity : ∀ s : Bit, named defaultF3Map (s ++ 0b10#2) = infBucket s := by decide
  have nan : ∀ s : Bit, named defaultF3Map (s ++ 0b11#2) = nanBucket s := by decide
  simp only [encoderBitForm]
  split_ifs with zeroMag below isOne atMostInf
  · rw [zero, bucket_of_zero zeroMag]
  · rw [nan, bucket_of_fraction (Nat.pos_of_ne_zero zeroMag) below]
  · rw [one, bucket_of_one isOne]
  · rw [infinity]
    rcases atMostInf.lt_or_eq with finite | infinite
    · rw [bucket_of_large (by omega) finite]
    · rw [bucket_of_infinite infinite]
  · rw [nan, bucket_of_isNaN ((isInf_isNaN_iff_magBits w).2.mpr (not_le.mp atMostInf))]

end

theorem exec_f3enc (s : State) : exec .f3enc s = completeZ s (bucket s.inp.f) := rfl

/-- Settles O33: each of the rules on scaled integers is the rule on the rational value. -/
theorem f3EncClassifiesReals : Obligations.F3EncClassifiesReals := by
  intro s w v
  have classified : bucket w = v := by
    simp only [bucket, v, realOf_eq_one, realOf_eq_neg_one, one_lt_realOf, realOf_lt_neg_one, Bool.and_eq_true, beq_iff_eq,
      Bool.not_eq_true', Bool.not_eq_true, decide_eq_true_eq]
  rw [exec_f3enc, classified, completeZ_eq]

/-- Settles O34: the second clause is the first, since the default map is a bijection. -/
theorem f3EncBitLevelForm : Obligations.F3EncBitLevelForm := by
  intro s
  have anyMap : exec .f3enc s = .next { s with out := { Outputs.zero s.cfg.fmt with
      z := pattern s.cfg.f3Map (named defaultF3Map (encoderBitForm s.inp.f)) } } := by
    rw [exec_f3enc, named_encoderBitForm, completeZ_eq]
  refine ⟨anyMap, fun defaultMap => ?_⟩
  rw [anyMap, defaultMap, pattern_named defaultF3Map_wf]

/-- Settles O35. -/
theorem f3EncSaturatesLargeInputs : Obligations.F3EncSaturatesLargeInputs := by
  intro s finite large
  have infinity : bucket s.inp.f = infBucket (signBit s.inp.f) :=
    bucket_of_large (one_lt_abs_realOf_iff.mp large) (magBits_lt_infMag_of_isFinite finite)
  rw [exec_f3enc, infinity]
  rfl

/-- Settles O36. -/
theorem f3EncNaNBuckets : Obligations.F3EncNaNBuckets := by
  intro s fractionOrNaN
  have nan : bucket s.inp.f = nanBucket (signBit s.inp.f) := by
    obtain ⟨-, nonzero, below⟩ | nanWord := fractionOrNaN
    · exact bucket_of_fraction (magBits_pos_of_abs_realOf_pos nonzero) (abs_realOf_lt_one_iff.mp below)
    · exact bucket_of_isNaN nanWord
  rw [exec_f3enc, nan]
  rfl

theorem encoderBitForm_of_encoderCorners : ∀ row ∈ encoderCorners,
    encoderBitForm (.b32 row.1) = row.2.2 ∧ encoderBitForm (.b64 row.2.1) = row.2.2 := by
  simp only [encoderCorners, List.cons_append, List.nil_append, List.forall_mem_cons, List.not_mem_nil,
    false_imp_iff, implies_true, and_true]
  and_intros <;> decide

/-- Settles O37, row by row on the bit-level form. -/
theorem f3EncCornerTable : Obligations.F3EncCornerTable := by
  intro s defaultMap row mem
  obtain ⟨in32, in64⟩ := encoderBitForm_of_encoderCorners row mem
  exact ⟨⟨_, (f3EncBitLevelForm _).2 defaultMap, in32⟩, ⟨_, (f3EncBitLevelForm _).2 defaultMap, in64⟩⟩

end Sys2Proof.Machine
end

/-! What each kind of native value says of a word's fields and of its real number (00_scope.md R12). -/
section
namespace Sys2Proof.Machine

variable {w : NativeWord}

theorem isNaN_of_nativeValue (nan : nativeValue w = .nan) : isNaN w = true := by
  rw [nativeValue] at nan
  split_ifs at nan with isNaNWord
  exact isNaNWord

theorem isInf_of_nativeValue {sgn : Bit} (infinite : nativeValue w = .infinite sgn) : isInf w = true ∧ signBit w = sgn := by
  rw [nativeValue] at infinite
  split_ifs at infinite with _ isInfWord
  exact ⟨isInfWord, NativeValue.infinite.inj infinite⟩

/-- A word is finite when it is neither a NaN nor an infinity. -/
theorem isFinite_of_not_isNaN_of_not_isInf (notNaN : ¬ isNaN w = true) (notInf : ¬ isInf w = true) : isFinite w = true := by
  simp only [isNaN, isInf, isFinite, Bool.and_eq_true, beq_iff_eq, bne_iff_ne] at notNaN notInf ⊢
  exact fun exponent => (eq_or_ne (fracField w) 0).elim (notInf ⟨exponent, ·⟩) (notNaN ⟨exponent, ·⟩)

theorem isFinite_of_nativeValue {sgn : Bit} {mag : Nat} (finite : nativeValue w = .finite sgn mag) :
    isFinite w = true ∧ signBit w = sgn ∧ realOf w = (signedMag sgn mag : ℚ) / scale w.fmt := by
  rw [nativeValue] at finite
  split_ifs at finite with notNaN notInf
  obtain ⟨rfl, rfl⟩ := NativeValue.finite.inj finite
  exact ⟨isFinite_of_not_isNaN_of_not_isInf notNaN notInf, rfl, realOf_eq_scaled w⟩

end Sys2Proof.Machine
end

/-! F3DEC, and the two round trips between patterns and native words (45_fp3_decoder.md R600 to R608). -/
section
namespace Sys2Proof.Machine

theorem State.wf_iff (s : State) : s.wf = true ↔ s.cfg.native.wf = true ∧ s.cfg.f3Map.wf = true := by
  simp [State.wf, Config.wf]

theorem exec_f3dec (s : State) :
    exec .f3dec s = .next { s with out := { Outputs.zero s.cfg.fmt with
      fo := native s.cfg.native (named s.cfg.f3Map s.inp.p) } } := rfl

/-- The sign of a decoded word is the sign of its value, the NaNs' too (R601, R602). -/
theorem signBit_native {n : NativeConfig} (h : n.wf = true) (v : Fp3) : signBit (native n v) = fp3Sign v := by
  have value := nativeValue_native h v
  cases v
  case posZero | posOne | negZero | negOne => exact (isFinite_of_nativeValue value).2.1
  case posInfinity | negInfinity => exact (isInf_of_nativeValue value).2
  case posNan => cases n <;> exact (nanWord_fields h 0#1).2
  case negNan => cases n <;> exact (nanWord_fields h 1#1).2

/-- A named value whose scaled integer is `r` times the scale decodes to a finite word of real value `r`. -/
theorem realOf_native {n : NativeConfig} (h : n.wf = true) {v : Fp3} {sgn : Bit} {mag : Nat} {r : ℚ}
    (finite : decodedValue n.fmt v = .finite sgn mag) (scaled : (signedMag sgn mag : ℚ) = r * scale n.fmt) :
    isFinite (native n v) = true ∧ realOf (native n v) = r := by
  obtain ⟨isFiniteWord, -, real⟩ := isFinite_of_nativeValue ((nativeValue_native h v).trans finite)
  exact ⟨isFiniteWord, by rw [real, native_fmt, scaled, mul_div_cancel_right₀ r (scale_pos _).ne']⟩

/-- F3DEC of a value's own pattern gives the value's word. -/
theorem exec_f3dec_pattern {s : State} {v : Fp3} (h : s.wf = true) (hp : s.inp.p = pattern s.cfg.f3Map v) :
    exec .f3dec s = .next { s with out := { Outputs.zero s.cfg.fmt with fo := native s.cfg.native v } } := by
  rw [exec_f3dec, hp, named_pattern (s.wf_iff.mp h).2]

/-- F3ENC of a value's own word gives the value's pattern. -/
theorem exec_f3enc_native {s : State} {v : Fp3} (h : s.wf = true) (hf : s.inp.f = native s.cfg.native v) :
    exec .f3enc s = .next { s with out := { Outputs.zero s.cfg.fmt with z := pattern s.cfg.f3Map v } } := by
  rw [exec_f3enc, hf, bucket_native (s.wf_iff.mp h).1, completeZ_eq]

/-- Settles O39. -/
theorem everyPatternIsAConstant : Obligations.EveryPatternIsAConstant :=
  fun _ h => ⟨named_pattern h, pattern_named h⟩

/-- Settles O41, from the native value of each decoded word. -/
theorem f3DecExactValues : Obligations.F3DecExactValues := by
  intro s h v
  obtain ⟨hn, -⟩ := s.wf_iff.mp h
  have value := nativeValue_native hn v
  refine ⟨native s.cfg.native v, exec_f3dec s, native_fmt _ _, signBit_native hn v, ?zero, ?one, ?negOne, ?inf, ?nan⟩
  case zero =>
    rintro (zero | zero) <;> rw [zero]
    · exact realOf_native hn (v := .posZero) rfl (by simp [signedMag])
    · exact realOf_native hn (v := .negZero) rfl (by simp [signedMag])
  case one => intro one; rw [one]; exact realOf_native hn (v := .posOne) rfl (by simp [signedMag])
  case negOne => intro negOne; rw [negOne]; exact realOf_native hn (v := .negOne) rfl (by simp [signedMag])
  case inf => rintro (inf | inf) <;> rw [inf] at value ⊢ <;> exact (isInf_of_nativeValue value).1
  case nan => rintro (nan | nan) <;> rw [nan] at value ⊢ <;> exact isNaN_of_nativeValue value

/-- Settles O42: the word F3DEC drives is the one of `p`'s value, which F3ENC sends back to `p`. -/
theorem patternRoundTrip : Obligations.PatternRoundTrip := fun s h =>
  ⟨_, _, exec_f3dec s, exec_f3enc_native h rfl, pattern_named (s.wf_iff.mp h).2 s.inp.p⟩

/-- Settles O43: after the first F3ENC every evaluation stays at the bucket's own pattern and word. -/
theorem roundingIsIdempotent : Obligations.RoundingIsIdempotent := fun s h =>
  ⟨_, _, _, _, exec_f3enc s, exec_f3dec_pattern h rfl, exec_f3enc_native h rfl, rfl, rfl, exec_f3dec_pattern h rfl, rfl⟩

/-- Settles O38. -/
theorem defaultPatternTable : Obligations.DefaultPatternTable :=
  ⟨rfl, rfl, rfl, rfl, rfl, rfl, rfl, rfl, pattern_named defaultF3Map_wf, by decide, by decide, by decide, by decide⟩

theorem native_of_decoderTable : ∀ row ∈ decoderTable,
    native (defaultNative .binary32) (named defaultF3Map row.1) = .b32 row.2.1
    ∧ native (defaultNative .binary64) (named defaultF3Map row.1) = .b64 row.2.2 := by
  simp only [decoderTable, List.forall_mem_cons, List.not_mem_nil, false_imp_iff, implies_true, and_true]
  and_intros <;> decide

/-- Settles O40, row by row on the decoded words. -/
theorem f3DecNativeTable : Obligations.F3DecNativeTable := by
  intro s row mem hp
  obtain ⟨word32, word64⟩ := native_of_decoderTable row mem
  refine ⟨fun cfg32 => ?_, fun cfg64 => ?_⟩
  · rw [exec_f3dec, hp, cfg32, ← word32]; rfl
  · rw [exec_f3dec, hp, cfg64, ← word64]; rfl

end Sys2Proof.Machine
end

/-! F3NEG, and F3EQ against native equality (46_fp3_ops.md R650, R655). -/
section
namespace Sys2Proof.Machine

/-- The eight named values, in the order of the result tables. -/
def fp3Values : List Fp3 :=
  [.posZero, .posOne, .posInfinity, .posNan, .negZero, .negOne, .negInfinity, .negNan]

theorem mem_fp3Values (v : Fp3) : v ∈ fp3Values := by cases v <;> decide

/-- A fact about two named values is a fact about the 64 pairs. -/
theorem forall_fp3_pair {P : Fp3 → Fp3 → Prop} (pairs : ∀ v ∈ fp3Values, ∀ u ∈ fp3Values, P v u) (v u : Fp3) :
    P v u :=
  pairs v (mem_fp3Values v) u (mem_fp3Values u)

theorem exec_f3neg (s : State) :
    exec .f3neg s = .next { s with out := { Outputs.zero s.cfg.fmt with
      z := pattern s.cfg.f3Map (fp3Negate (named s.cfg.f3Map s.inp.p)) } } := rfl

theorem exec_f3eq (s : State) :
    exec .f3eq s = .next { s with out := { Outputs.zero s.cfg.fmt with eq := if fp3Equal s then 1#1 else 0#1 } } := rfl

/-- Under the default map the other sign is the other top bit (R601, R650). -/
theorem pattern_fp3Negate_default : ∀ p : F3, pattern defaultF3Map (fp3Negate (named defaultF3Map p))
    = ~~~(p.extractLsb' 2 1) ++ p.extractLsb' 1 1 ++ p.extractLsb' 0 1 := by decide

/-- Settles O44: F3NEG gives the value of the other sign, which is an involution on values, and so on patterns. -/
theorem f3NegFlipsTheSign : Obligations.F3NegFlipsTheSign := by
  intro s
  refine ⟨exec_f3neg s, fun defaultMap => ?_, fun h => ⟨_, _, exec_f3neg s, exec_f3neg _, ?_⟩⟩
  · rw [exec_f3neg, defaultMap, pattern_fp3Negate_default]
  · obtain ⟨-, hmap⟩ := s.wf_iff.mp h
    simp only [drive_cfg, drive_inp, named_pattern hmap, fp3Negate_negate, pattern_named hmap]

theorem fp3IsNaN_named_default : ∀ p : F3, fp3IsNaN (named defaultF3Map p) = true ↔ p.extractLsb' 0 2 = 0b11#2 := by
  decide

theorem fp3IsZero_named_default : ∀ p : F3, fp3IsZero (named defaultF3Map p) = true ↔ p.extractLsb' 0 2 = 0b00#2 := by
  decide

/-- Native `==` on the values of two words. -/
def valuesEqual : NativeValue → NativeValue → Bool
  | .infinite s, .infinite t => s == t
  | .finite s m, .finite t n => signedMag s m == signedMag t n
  | _, _ => false

theorem isInf_iff_nativeValue {w : NativeWord} : isInf w = true ↔ ∃ sgn, nativeValue w = .infinite sgn := by
  refine ⟨fun inf => ⟨signBit w, ?_⟩, fun ⟨_, value⟩ => (isInf_of_nativeValue value).1⟩
  have notNaN : ¬ isNaN w = true := fun nan => by simp [(not_inf_zero_of_isNaN nan).1] at inf
  rw [nativeValue, if_neg notNaN, if_pos inf]

theorem isFinite_iff_nativeValue {w : NativeWord} : isFinite w = true ↔ ∃ sgn mag, nativeValue w = .finite sgn mag := by
  refine ⟨fun finite => ⟨signBit w, scaledMag w, ?_⟩, fun ⟨_, _, value⟩ => (isFinite_of_nativeValue value).1⟩
  have exponent : expField w ≠ emax w.fmt := by simpa [isFinite] using finite
  have notNaN : ¬ isNaN w = true := by simp [isNaN, exponent]
  have notInf : ¬ isInf w = true := by simp [isInf, exponent]
  rw [nativeValue, if_neg notNaN, if_neg notInf]

theorem nativeEqual_iff {x y : NativeWord} (sameFmt : x.fmt = y.fmt) :
    nativeEqual x y ↔ valuesEqual (nativeValue x) (nativeValue y) = true := by
  rw [nativeEqual, isInf_iff_nativeValue, isInf_iff_nativeValue, isFinite_iff_nativeValue, isFinite_iff_nativeValue]
  cases hx : nativeValue x with
  | nan => simp [valuesEqual]
  | infinite s =>
    cases hy : nativeValue y with
    | nan => simp [valuesEqual]
    | infinite t => simp [valuesEqual, (isInf_of_nativeValue hx).2, (isInf_of_nativeValue hy).2]
    | finite t n => simp [valuesEqual]
  | finite s m =>
    cases hy : nativeValue y with
    | nan => simp [valuesEqual]
    | infinite t => simp [valuesEqual]
    | finite t n =>
      obtain ⟨-, -, realX⟩ := isFinite_of_nativeValue hx
      obtain ⟨-, -, realY⟩ := isFinite_of_nativeValue hy
      simp [valuesEqual, realX, realY, sameFmt, div_left_inj' (scale_pos y.fmt).ne']

/-- R655 on named values: equal and no NaNs, or both zeros. -/
def namesEqual (v u : Fp3) : Bool := (!fp3IsNaN v && !fp3IsNaN u && v == u) || (fp3IsZero v && fp3IsZero u)

theorem fp3Equal_eq_namesEqual {s : State} (hmap : s.cfg.f3Map.wf = true) :
    fp3Equal s = namesEqual (named s.cfg.f3Map s.inp.p) (named s.cfg.f3Map s.inp.q) := by
  have patterns : (s.inp.p == s.inp.q) = (named s.cfg.f3Map s.inp.p == named s.cfg.f3Map s.inp.q) := by
    rw [Bool.eq_iff_iff, beq_iff_eq, beq_iff_eq, named_eq_iff hmap]
  rw [fp3Equal, namesEqual, patterns, fp3P, fp3Q]

theorem valuesEqual_decodedValue (fmt : NativeFmt) (v u : Fp3) :
    valuesEqual (decodedValue fmt v) (decodedValue fmt u) = namesEqual v u := by
  revert v u
  cases fmt <;> exact forall_fp3_pair (by decide +kernel)

/-- Settles O45: in every configuration through the values of the decoded words. -/
theorem f3EqIsNativeEquality : Obligations.F3EqIsNativeEquality := by
  intro s
  refine ⟨fun defaultMap => ?_, fun h => ⟨_, exec_f3eq s, ?_⟩⟩
  · intro nanp nanq zp zq
    have formula : fp3Equal s = true ↔ (¬ nanp ∧ ¬ nanq ∧ s.inp.p = s.inp.q) ∨ (zp ∧ zq) := by
      simp only [fp3Equal, fp3P, fp3Q, defaultMap, Bool.or_eq_true, Bool.and_eq_true, Bool.not_eq_true', beq_iff_eq,
        Bool.eq_false_iff, ne_eq, fp3IsNaN_named_default, fp3IsZero_named_default, and_assoc, nanp, nanq, zp, zq]
    simp only [exec_f3eq, formula]
  · obtain ⟨hn, hmap⟩ := s.wf_iff.mp h
    have sameFmt : ∀ v u, (native s.cfg.native v).fmt = (native s.cfg.native u).fmt := fun v u => by
      rw [native_fmt, native_fmt]
    rw [nativeEqual_iff (sameFmt _ _), nativeValue_native hn, nativeValue_native hn, valuesEqual_decodedValue,
      fp3Equal_eq_namesEqual hmap]
    simp

end Sys2Proof.Machine
end

/-! The result tables of F3ADD, F3SUB, F3MUL, F3DIV and F3REM (46_fp3_ops.md R660 to R665). -/
section
namespace Sys2Proof.Machine

/-- The bucket that F3ENC gives a native result; `none` for a NaN, whose sign is drawn (R660). -/
def resultBucket : NativeResult → Option Fp3
  | .nan => none
  | .number w => some (bucket w)

/-- R660, for any native operation. -/
theorem fp3Arith_eq_fp3Next (op : NativeWord → NativeWord → NativeResult) (s : State) :
    fp3Arith op s = .next (fp3Next s (resultBucket (op (native s.cfg.native (named s.cfg.f3Map s.inp.p))
      (native s.cfg.native (named s.cfg.f3Map s.inp.q))))) := by
  rw [← fp3P, ← fp3Q]
  obtain ⟨w, number, run⟩ | ⟨nan, run⟩ := fp3Arith_cases op s
  · rw [run, number]; rfl
  · rw [run, nan]; rfl

/-- A result table lists the buckets of a native operation on the words of the fp3 values, in every configuration. -/
def IsTableOf (table : List (List (Option Fp3))) (op : NativeWord → NativeWord → NativeResult) : Prop :=
  ∀ n : NativeConfig, n.wf = true → ∀ v u : Fp3, resultBucket (op (native n v) (native n u)) = tableEntry table v u

theorem IsTableOf.fp3Arith {table : List (List (Option Fp3))} {op : NativeWord → NativeWord → NativeResult}
    (h : IsTableOf table op) (s : State) (hs : s.wf = true) :
    fp3Arith op s = .next (fp3Next s (tableEntry table (named s.cfg.f3Map s.inp.p) (named s.cfg.f3Map s.inp.q))) := by
  rw [fp3Arith_eq_fp3Next, h _ (s.wf_iff.mp hs).1]

/-- An operation that computes on the values of its words, in the format of the first, has the table of the decoded values:
the payload of a NaN plays no part. -/
theorem isTableOf_of_values {table : List (List (Option Fp3))} {op : NativeWord → NativeWord → NativeResult}
    {values : NativeFmt → NativeValue → NativeValue → NativeResult}
    (byValue : ∀ x y, op x y = values x.fmt (nativeValue x) (nativeValue y))
    (rows : ∀ fmt, ∀ v ∈ fp3Values, ∀ u ∈ fp3Values,
      resultBucket (values fmt (decodedValue fmt v) (decodedValue fmt u)) = tableEntry table v u) :
    IsTableOf table op := by
  intro n hn v u
  rw [byValue, native_fmt, nativeValue_native hn, nativeValue_native hn]
  exact forall_fp3_pair (rows n.fmt) v u

theorem isTableOf_addTable : IsTableOf addTable nativeAdd :=
  isTableOf_of_values (fun _ _ => rfl) fun fmt => by cases fmt <;> decide +kernel

theorem isTableOf_mulTable : IsTableOf mulTable nativeMul :=
  isTableOf_of_values (fun _ _ => rfl) fun fmt => by cases fmt <;> decide +kernel

theorem isTableOf_divTable : IsTableOf divTable nativeDiv :=
  isTableOf_of_values (fun _ _ => rfl) fun fmt => by cases fmt <;> decide +kernel

theorem isTableOf_remTable : IsTableOf remTable nativeRem :=
  isTableOf_of_values (fun _ _ => rfl) fun fmt => by cases fmt <;> decide +kernel

theorem nativeValue_native_fp3Negate {n : NativeConfig} (h : n.wf = true) (v : Fp3) :
    nativeValue (native n (fp3Negate v)) = negValue (nativeValue (native n v)) := by
  rw [nativeValue_native h, nativeValue_native h]
  cases v <;> rfl

/-- Subtraction is addition of the value of the other sign, which F3NEG gives. -/
theorem nativeSub_native {n : NativeConfig} (h : n.wf = true) (x : NativeWord) (u : Fp3) :
    nativeSub x (native n u) = nativeAdd x (native n (fp3Negate u)) := by
  rw [nativeSub, nativeAdd, nativeValue_native_fp3Negate h]

/-- R662's table is R661's with the columns of each sign swapped. -/
theorem tableEntry_addTable_fp3Negate (v u : Fp3) : tableEntry addTable v (fp3Negate u) = tableEntry subTable v u := by
  revert v u
  exact forall_fp3_pair (by decide)

theorem isTableOf_subTable : IsTableOf subTable nativeSub := by
  intro n hn v u
  rw [nativeSub_native hn, isTableOf_addTable n hn, tableEntry_addTable_fp3Negate]

/-- Settles O46. -/
theorem f3AddResultTable : Obligations.F3AddResultTable := isTableOf_addTable.fp3Arith

/-- Settles O47. -/
theorem f3SubResultTable : Obligations.F3SubResultTable := isTableOf_subTable.fp3Arith

/-- Settles O48. -/
theorem f3MulResultTable : Obligations.F3MulResultTable := isTableOf_mulTable.fp3Arith

/-- Settles O49. -/
theorem f3DivResultTable : Obligations.F3DivResultTable := isTableOf_divTable.fp3Arith

/-- Settles O50. -/
theorem f3RemResultTable : Obligations.F3RemResultTable := isTableOf_remTable.fp3Arith

end Sys2Proof.Machine
end

/-! Which results are NaNs, and the constants of F3ONE and F3ZERO, both read off the tables (46_fp3_ops.md R670 to R680). -/
section
namespace Sys2Proof.Machine

/-- The result table of each operation of R660; the others have none. -/
def resultTable : Instr → List (List (Option Fp3))
  | .f3add => addTable
  | .f3sub => subTable
  | .f3mul => mulTable
  | .f3div => divTable
  | .f3rem => remTable
  | _ => []

section
variable {i : Instr}

theorem exec_eq_fp3Next (draws : drawsNaNSign i = true) (s : State) (hs : s.wf = true) :
    exec i s
      = .next (fp3Next s (tableEntry (resultTable i) (named s.cfg.f3Map s.inp.p) (named s.cfg.f3Map s.inp.q))) := by
  cases i
  case f3add => exact f3AddResultTable s hs
  case f3sub => exact f3SubResultTable s hs
  case f3mul => exact f3MulResultTable s hs
  case f3div => exact f3DivResultTable s hs
  case f3rem => exact f3RemResultTable s hs
  all_goals cases draws

/-- The NaN* entries of the tables are those R680 lists. -/
theorem tableEntry_eq_none_iff (draws : drawsNaNSign i = true) (v u : Fp3) :
    tableEntry (resultTable i) v u = none ↔ givesNaN i v u := by
  unfold givesNaN
  revert v u
  cases i
  case f3add | f3sub | f3mul | f3div | f3rem => exact forall_fp3_pair (by decide)
  all_goals cases draws

/-- Every other entry is the bucket of a number. -/
theorem tableEntry_ne_some_nan (i : Instr) (v u : Fp3) :
    tableEntry (resultTable i) v u ≠ some .posNan ∧ tableEntry (resultTable i) v u ≠ some .negNan := by
  revert v u
  cases i <;> exact forall_fp3_pair (by decide)

end

theorem pattern_nanBucket_default : ∀ sgn : Bit, pattern defaultF3Map (nanBucket sgn) = sgn ++ 0b11#2 := by decide

/-- Settles O51: by the entry of the operation's table, which is NaN* exactly on the operands R680 lists. -/
theorem naNSignIsDrawnFresh : Obligations.NaNSignIsDrawnFresh := by
  intro i s draws hs v u
  have nanIff := tableEntry_eq_none_iff draws v u
  have notNaN := tableEntry_ne_some_nan i v u
  refine ⟨_, exec_eq_fp3Next draws s hs, fun nan => ?_, fun number => ?_⟩
  · rw [nanIff.mpr nan]
    refine ⟨rfl, rfl, fun defaultMap => ?_⟩
    rw [← pattern_nanBucket_default, ← defaultMap]
    rfl
  · obtain ⟨r, entry⟩ := Option.ne_none_iff_exists'.mp (mt nanIff.mp number)
    rw [entry, Option.some_inj.ne, Option.some_inj.ne] at notNaN
    rw [entry]
    refine ⟨rfl, ?_⟩
    simpa only [fp3Next, named_pattern (s.wf_iff.mp hs).2] using notNaN

theorem exec_f3one (s : State) :
    exec .f3one s = .next { s with out := { Outputs.zero s.cfg.fmt with z := pattern s.cfg.f3Map .posOne } } := rfl

theorem exec_f3zero (s : State) :
    exec .f3zero s = .next { s with out := { Outputs.zero s.cfg.fmt with z := pattern s.cfg.f3Map .posZero } } := rfl

/-- A host that drives the pattern of `u` on `q` reads the entry of `u`'s column. -/
theorem exists_exec_drive_q {i : Instr} (draws : drawsNaNSign i = true) {s : State} (hs : s.wf = true) {u r : Fp3}
    (entry : tableEntry (resultTable i) (named s.cfg.f3Map s.inp.p) u = some r) :
    ∃ t : State, exec i (s.drive { s.inp with q := pattern s.cfg.f3Map u }) = .next t
      ∧ t.out.z = pattern s.cfg.f3Map r := by
  refine ⟨_, exec_eq_fp3Next draws _ hs, ?_⟩
  simp only [drive_cfg, drive_inp, named_pattern (s.wf_iff.mp hs).2, entry, fp3Next]

/-- The column of POS_ONE in R663's table. -/
theorem tableEntry_mulTable_posOne {v : Fp3} (notPosNan : v ≠ .posNan) (notNegNan : v ≠ .negNan) :
    tableEntry mulTable v .posOne = some v := by
  cases v
  case posNan => exact absurd rfl notPosNan
  case negNan => exact absurd rfl notNegNan
  all_goals rfl

/-- The column of POS_ZERO in R661's table. -/
theorem tableEntry_addTable_posZero {v : Fp3} (notPosNan : v ≠ .posNan) (notNegNan : v ≠ .negNan) :
    tableEntry addTable v .posZero = some (if v = .negZero then .posZero else v) := by
  cases v
  case posNan => exact absurd rfl notPosNan
  case negNan => exact absurd rfl notNegNan
  all_goals rfl

/-- Settles O53: the two identities are the columns of POS_ONE and POS_ZERO. -/
theorem fp3ConstantsAreIdentities : Obligations.Fp3ConstantsAreIdentities := by
  intro s
  refine ⟨exec_f3one s, exec_f3zero s, fun defaultMap => ?_, fun hs notPosNan notNegNan => ?_⟩
  · rw [exec_f3one, exec_f3zero, defaultMap]
    exact ⟨rfl, rfl⟩
  · obtain ⟨-, hmap⟩ := s.wf_iff.mp hs
    have product := tableEntry_mulTable_posOne notPosNan notNegNan
    have sum := tableEntry_addTable_posZero notPosNan notNegNan
    obtain ⟨t, mul, productZ⟩ := exists_exec_drive_q (i := .f3mul) rfl hs product
    obtain ⟨u, add, sumZ⟩ := exists_exec_drive_q (i := .f3add) rfl hs sum
    refine ⟨_, _, t, u, exec_f3one s, exec_f3zero s, mul, ?_, add, fun notNegZero => ?_, fun negZero => ?_⟩
    · rw [productZ, pattern_named hmap]
    · rw [sumZ, if_neg notNegZero, pattern_named hmap]
    · rw [sumZ, if_pos negZero, named_pattern hmap]

end Sys2Proof.Machine
end

/-! Rounding of the small integers, which is exact (46_fp3_ops.md R666). -/
section
namespace Sys2Proof.Machine

variable {fmt : NativeFmt} {w : NativeWord} {s t : Bit}

/-- Rounding sees the quotient alone. -/
theorem roundHalfEven_mul_mul {d : Nat} (hd : 0 < d) (k m : Nat) :
    roundHalfEven (k * d) (m * d) = roundHalfEven k m := by
  have quotient : k * d / (m * d) = k / m := Nat.mul_div_mul_right k m hd
  have above : 2 * (k % m * d) > m * d ↔ 2 * (k % m) > m := by
    rw [← mul_assoc, gt_iff_lt, Nat.mul_lt_mul_right hd]
  have tie : 2 * (k % m * d) = m * d ↔ 2 * (k % m) = m := by
    rw [← mul_assoc, Nat.mul_left_inj hd.ne']
  simp only [roundHalfEven, quotient, Nat.mul_mod_mul_right, above, tie]

theorem roundToWord_mul_self {d : Nat} (hd : 0 < d) (fmt : NativeFmt) (sgn : Bit) (k : Nat) :
    roundToWord fmt sgn (k * d) d = roundToWord fmt sgn k 1 := by
  simp only [roundToWord, Nat.mul_div_cancel k hd, Nat.div_one, one_mul]
  rw [mul_comm d, roundHalfEven_mul_mul hd]

theorem natScale_pos (fmt : NativeFmt) : 0 < scale fmt := by exact_mod_cast scale_pos fmt

theorem signedMag_mul (sgn : Bit) (k d : Nat) : signedMag sgn (k * d) = signedMag sgn k * d := by
  unfold signedMag
  split <;> push_cast <;> ring

theorem bit_eq_zero_or_one : ∀ v : Bit, v = 0#1 ∨ v = 1#1 := by decide

theorem signedMag_xor (s t : Bit) (a b : Nat) : signedMag (s ^^^ t) (a * b) = signedMag s a * signedMag t b := by
  obtain rfl | rfl := bit_eq_zero_or_one s
  all_goals
    obtain rfl | rfl := bit_eq_zero_or_one t
    all_goals simp [signedMag]

theorem signedMag_not (t : Bit) (b : Nat) : signedMag (~~~t) b = -signedMag t b := by
  obtain rfl | rfl := bit_eq_zero_or_one t
  all_goals simp [signedMag]

theorem signedMag_one_ne_zero (t : Bit) : (signedMag t 1 : ℚ) ≠ 0 := by
  unfold signedMag
  split <;> simp

/-- A quotient by 1 or -1 is an integer. -/
theorem signedMag_div_one (s t : Bit) (a : Nat) : (signedMag s a : ℚ) / signedMag t 1 = signedMag (s ^^^ t) a := by
  have self : (signedMag t 1 : ℚ) * signedMag t 1 = 1 := by
    unfold signedMag
    split <;> simp
  rw [div_eq_iff (signedMag_one_ne_zero t), ← mul_one a, signedMag_xor, Int.cast_mul, mul_assoc, self, mul_one, mul_one]

/-- The sign and magnitude by which `addValues` rounds a sum. -/
theorem signedMag_natAbs (k : Int) : signedMag (if k < 0 then 1#1 else 0#1) k.natAbs = k := by
  split
  next negative => simp only [signedMag, if_true]; omega
  next nonneg => simp only [signedMag]; rw [if_neg (by decide)]; omega

/-- The word to which the unit rounds the integer `k` with a sign. -/
def intWord (fmt : NativeFmt) (sgn : Bit) (k : Nat) : NativeWord := roundToWord fmt sgn (k * scale fmt) 1

/-- No integer up to 2 is rounded away, in either format. -/
theorem nativeValue_intWord : ∀ (fmt : NativeFmt), ∀ k ≤ 2, ∀ sgn : Bit,
    nativeValue (intWord fmt sgn k) = .finite sgn (k * scale fmt) := by
  intro fmt
  cases fmt <;> decide +kernel

theorem zeroWord_eq_intWord : ∀ (fmt : NativeFmt) (sgn : Bit), zeroWord fmt sgn = intWord fmt sgn 0 := by
  intro fmt
  cases fmt <;> decide +kernel

theorem nativeValue_infWord : ∀ (fmt : NativeFmt) (sgn : Bit), nativeValue (infWord fmt sgn) = .infinite sgn := by
  intro fmt
  cases fmt <;> decide +kernel

theorem nativeWord_fmt (sgn : Bit) (mag : Nat) : (nativeWord fmt sgn mag).fmt = fmt := by cases fmt <;> rfl

/-- A word of the format that is an infinity or one of ±0, ±1, ±2. -/
def IsSmallOrInf (fmt : NativeFmt) (w : NativeWord) : Prop :=
  w.fmt = fmt ∧ (isInf w = true ∨ (isFinite w = true ∧ (realOf w = 0 ∨ |realOf w| = 1 ∨ |realOf w| = 2)))

/-- A finite word of the format whose real number is `r`, one of 0, ±1 and ±2. -/
structure IsExact (fmt : NativeFmt) (w : NativeWord) (r : ℚ) : Prop where
  finite : isFinite w = true
  real : realOf w = r
  small : IsSmallOrInf fmt w

/-- An infinity of the format. -/
structure IsInfinite (fmt : NativeFmt) (w : NativeWord) : Prop where
  inf : isInf w = true
  small : IsSmallOrInf fmt w

theorem isExact_intWord {k : Nat} (hk : k ≤ 2) : IsExact fmt (intWord fmt s k) (signedMag s k) := by
  obtain ⟨finite, -, real⟩ := isFinite_of_nativeValue (nativeValue_intWord fmt k hk s)
  have fmtEq : (intWord fmt s k).fmt = fmt := nativeWord_fmt _ _
  rw [fmtEq, signedMag_mul, Int.cast_mul, Int.cast_natCast, mul_div_cancel_right₀ _ (scale_pos fmt).ne'] at real
  have abs : |realOf (intWord fmt s k)| = k := by
    rw [real, signedMag]
    split <;> simp
  refine ⟨finite, real, fmtEq, .inr ⟨finite, ?_⟩⟩
  rw [← abs_eq_zero, abs]
  norm_cast
  omega

theorem isInfinite_infWord (fmt : NativeFmt) (sgn : Bit) : IsInfinite fmt (infWord fmt sgn) := by
  have inf := (isInf_of_nativeValue (nativeValue_infWord fmt sgn)).1
  exact ⟨inf, nativeWord_fmt _ _, .inl inf⟩

theorem isExact_intWord_zero : IsExact fmt (intWord fmt s 0) 0 := by
  simpa [signedMag] using isExact_intWord (fmt := fmt) (s := s) (Nat.zero_le 2)

/-! The operations on the integers 0 and 1, with a sign. -/

section
variable {a b : Nat}

theorem isExact_of_addValues (ha : a ≤ 1) (hb : b ≤ 1)
    (sum : addValues fmt (.finite s (a * scale fmt)) (.finite t (b * scale fmt)) = .number w) :
    IsExact fmt w (signedMag s a + signedMag t b) := by
  obtain ⟨k, hk⟩ : ∃ k, k = signedMag s a + signedMag t b := ⟨_, rfl⟩
  have small : k.natAbs ≤ 2 := by
    simp only [hk, signedMag]
    split <;> split <;> omega
  have spos := natScale_pos fmt
  have scaled : signedMag s (a * scale fmt) + signedMag t (b * scale fmt) = k * scale fmt := by
    rw [signedMag_mul, signedMag_mul, hk, add_mul]
  have isZero : k * (scale fmt : Int) = 0 ↔ k = 0 := by simp [spos.ne']
  have isNeg : k * (scale fmt : Int) < 0 ↔ k < 0 := by simp [mul_neg_iff, spos]
  have goal : ((signedMag s a : ℚ) + signedMag t b) = (k : ℚ) := by rw [hk]; push_cast; rfl
  simp only [addValues, scaled, isZero, isNeg, Int.natAbs_mul, Int.natAbs_natCast] at sum
  rw [goal]
  split at sum
  next zero =>
    obtain rfl := NativeResult.number.inj sum
    rw [zeroWord_eq_intWord, zero, Int.cast_zero]
    exact isExact_intWord_zero
  next =>
    obtain rfl := NativeResult.number.inj sum
    have isExact := isExact_intWord (fmt := fmt) (s := if k < 0 then 1#1 else 0#1) small
    rwa [signedMag_natAbs] at isExact

theorem isExact_of_mulValues (ha : a ≤ 1) (hb : b ≤ 1)
    (product : mulValues fmt (.finite s (a * scale fmt)) (.finite t (b * scale fmt)) = .number w) :
    IsExact fmt w (signedMag s a * signedMag t b) := by
  have spos := natScale_pos fmt
  have small : a * b ≤ 2 := (Nat.mul_le_mul ha hb).trans (by decide)
  obtain rfl := NativeResult.number.inj product
  have regroup : a * scale fmt * (b * scale fmt) = a * b * scale fmt * scale fmt := by ring
  rw [regroup, roundToWord_mul_self spos, ← Int.cast_mul, ← signedMag_xor]
  exact isExact_intWord small

theorem isExact_of_divValues_one (ha : a ≤ 1)
    (quotient : divValues fmt (.finite s (a * scale fmt)) (.finite t (1 * scale fmt)) = .number w) :
    IsExact fmt w (signedMag s a / signedMag t 1) := by
  have spos := natScale_pos fmt
  rw [one_mul, divValues, if_neg spos.ne'] at quotient
  obtain rfl := NativeResult.number.inj quotient
  rw [roundToWord_mul_self spos, signedMag_div_one]
  exact isExact_intWord (ha.trans (by decide))

theorem isInfinite_of_number {sgn : Bit} (result : NativeResult.number (infWord fmt sgn) = .number w) :
    IsInfinite fmt w :=
  NativeResult.number.inj result ▸ isInfinite_infWord fmt sgn

theorem isInfinite_of_divValues_zero (quotient : divValues fmt (.finite s a) (.finite t 0) = .number w) :
    IsInfinite fmt w := by
  rw [divValues, if_pos rfl] at quotient
  split at quotient
  · cases quotient
  · exact isInfinite_of_number quotient

theorem truncQ_intCast (k : ℤ) : truncQ k = k := by
  unfold truncQ
  split
  · exact Int.ceil_intCast k
  · exact Int.floor_intCast k

/-- No remainder by 0, and none is left by 1 or -1. -/
theorem isExact_of_remValues (hb : b ≤ 1)
    (remainder : remValues fmt (.finite s (a * scale fmt)) (.finite t (b * scale fmt)) = .number w) :
    b = 1 ∧ IsExact fmt w 0 := by
  obtain rfl | rfl := Nat.le_one_iff_eq_zero_or_eq_one.mp hb
  · rw [zero_mul, remValues, if_pos rfl] at remainder
    cases remainder
  · have spos : 0 < scale fmt := by exact_mod_cast scale_pos fmt
    rw [one_mul, remValues, if_neg spos.ne', Nat.mul_mod_left, ← zero_mul (scale fmt)] at remainder
    obtain rfl := NativeResult.number.inj remainder
    exact ⟨rfl, isExact_intWord_zero⟩

end

end Sys2Proof.Machine
end

/-! The operations on the words of the fp3 values (46_fp3_ops.md R666). -/
section
namespace Sys2Proof.Machine

/-- The kinds of operand the decoder gives: a NaN, an infinity, or the integer 0 or 1 with a sign (R602, R604). -/
inductive IsOperand (fmt : NativeFmt) (x : NativeWord) : Prop
  | nan (value : nativeValue x = .nan)
  | infinite (sgn : Bit) (value : nativeValue x = .infinite sgn) (inf : isInf x = true) (notFinite : isFinite x = false)
  | finite (sgn : Bit) (k : Nat) (le_one : k ≤ 1) (value : nativeValue x = .finite sgn (k * scale fmt))
      (notInf : isInf x = false) (finite : isFinite x = true) (real : realOf x = signedMag sgn k)

theorem isFinite_eq_false_of_isInf {w : NativeWord} (inf : isInf w = true) : isFinite w = false := by
  simp only [isInf, Bool.and_eq_true, beq_iff_eq] at inf
  simp [isFinite, inf.1]

theorem isOperand_native {n : NativeConfig} (h : n.wf = true) (v : Fp3) : IsOperand n.fmt (native n v) := by
  have value := nativeValue_native h v
  have infinite {sgn : Bit} (value : nativeValue (native n v) = .infinite sgn) : IsOperand n.fmt (native n v) := by
    have inf := (isInf_of_nativeValue value).1
    exact .infinite sgn value inf (isFinite_eq_false_of_isInf inf)
  have finite {sgn : Bit} {k : Nat} (hk : k ≤ 1) (value : nativeValue (native n v) = .finite sgn (k * scale n.fmt)) :
      IsOperand n.fmt (native n v) := by
    obtain ⟨isFiniteWord, -, real⟩ := isFinite_of_nativeValue value
    have notInf : isInf (native n v) = false :=
      Bool.eq_false_iff.mpr fun inf => by simp [isFinite_eq_false_of_isInf inf] at isFiniteWord
    rw [native_fmt, signedMag_mul, Int.cast_mul, Int.cast_natCast, mul_div_cancel_right₀ _ (scale_pos _).ne'] at real
    exact .finite sgn k hk value notInf isFiniteWord real
  cases v
  case posNan | negNan => exact .nan value
  case posInfinity | negInfinity => exact infinite value
  case posZero | negZero => exact finite (Nat.zero_le 1) (by rw [value, decodedValue, zero_mul])
  case posOne | negOne => exact finite le_rfl (by rw [value, decodedValue, one_mul])

section
variable {fmt : NativeFmt} {x y w : NativeWord}

/-- What R666 says of a sum, difference or product `w`, where `r` is the exact result on finite operands. -/
structure ArithSpec (fmt : NativeFmt) (x y w : NativeWord) (r : ℚ) : Prop where
  small : IsSmallOrInf fmt w
  onFinite : isFinite x = true → isFinite y = true → isFinite w = true ∧ realOf w = r
  infinite : isInf x = true ∨ isInf y = true → isInf w = true

/-- An operation on values that keeps NaNs and infinities, and is exact on the integers 0 and 1, meets R666. -/
theorem arithSpec_of_values {values : NativeValue → NativeValue → NativeResult} {f : ℚ → ℚ → ℚ}
    (nanLeft : ∀ Y, values .nan Y = .nan) (nanRight : ∀ X, values X .nan = .nan)
    (infLeft : ∀ s Y, values (.infinite s) Y = .number w → IsInfinite fmt w)
    (infRight : ∀ X t, values X (.infinite t) = .number w → IsInfinite fmt w)
    (ints : ∀ {s t a b}, a ≤ 1 → b ≤ 1 → values (.finite s (a * scale fmt)) (.finite t (b * scale fmt)) = .number w →
      IsExact fmt w (f (signedMag s a) (signedMag t b)))
    (hx : IsOperand fmt x) (hy : IsOperand fmt y) (result : values (nativeValue x) (nativeValue y) = .number w) :
    ArithSpec fmt x y w (f (realOf x) (realOf y)) := by
  cases hx with
  | nan valueX => rw [valueX, nanLeft] at result; cases result
  | infinite s valueX _ notFiniteX =>
    have inf := infLeft s _ (valueX ▸ result)
    exact ⟨inf.small, by simp [notFiniteX], fun _ => inf.inf⟩
  | finite s a ha valueX notInfX finiteX realX =>
    cases hy with
    | nan valueY => rw [valueY, nanRight] at result; cases result
    | infinite t valueY _ notFiniteY =>
      have inf := infRight _ t (valueY ▸ result)
      exact ⟨inf.small, by simp [notFiniteY], fun _ => inf.inf⟩
    | finite t b hb valueY notInfY finiteY realY =>
      rw [valueX, valueY] at result
      have isExact := ints ha hb result
      exact ⟨isExact.small, fun _ _ => ⟨isExact.finite, by rw [isExact.real, realX, realY]⟩, by simp [notInfX, notInfY]⟩

theorem isInfinite_of_addValues_left (s : Bit) (Y : NativeValue) (sum : addValues fmt (.infinite s) Y = .number w) :
    IsInfinite fmt w := by
  cases Y with
  | nan => cases sum
  | infinite t =>
    rw [addValues] at sum
    split at sum
    · exact isInfinite_of_number sum
    · cases sum
  | finite t b => exact isInfinite_of_number sum

theorem isInfinite_of_addValues_right (X : NativeValue) (t : Bit) (sum : addValues fmt X (.infinite t) = .number w) :
    IsInfinite fmt w := by
  cases X with
  | nan => cases sum
  | infinite s => exact isInfinite_of_addValues_left s _ sum
  | finite s a => exact isInfinite_of_number sum

theorem nativeAdd_spec (hfmt : x.fmt = fmt) (hx : IsOperand fmt x) (hy : IsOperand fmt y)
    (sum : nativeAdd x y = .number w) : ArithSpec fmt x y w (realOf x + realOf y) :=
  arithSpec_of_values (fun _ => rfl) (fun X => by cases X <;> rfl) isInfinite_of_addValues_left
    isInfinite_of_addValues_right isExact_of_addValues hx hy (hfmt ▸ sum)

theorem nativeSub_spec (hfmt : x.fmt = fmt) (hx : IsOperand fmt x) (hy : IsOperand fmt y)
    (difference : nativeSub x y = .number w) : ArithSpec fmt x y w (realOf x - realOf y) := by
  refine arithSpec_of_values (values := fun X Y => addValues fmt X (negValue Y)) (fun _ => rfl)
    (fun X => by cases X <;> rfl) (fun s Y => isInfinite_of_addValues_left s (negValue Y))
    (fun X t => isInfinite_of_addValues_right X (~~~t)) (fun {s t a b} ha hb result => ?_) hx hy (hfmt ▸ difference)
  have isExact := isExact_of_addValues ha hb result
  rwa [signedMag_not, Int.cast_neg, ← sub_eq_add_neg] at isExact

theorem isInfinite_of_mulValues_left (s : Bit) (Y : NativeValue) (product : mulValues fmt (.infinite s) Y = .number w) :
    IsInfinite fmt w := by
  cases Y with
  | nan => cases product
  | infinite t => exact isInfinite_of_number product
  | finite t b =>
    rw [mulValues] at product
    split at product
    · cases product
    · exact isInfinite_of_number product

theorem isInfinite_of_mulValues_right (X : NativeValue) (t : Bit) (product : mulValues fmt X (.infinite t) = .number w) :
    IsInfinite fmt w := by
  cases X with
  | nan => cases product
  | infinite s => exact isInfinite_of_number product
  | finite s a =>
    rw [mulValues] at product
    split at product
    · cases product
    · exact isInfinite_of_number product

theorem nativeMul_spec (hfmt : x.fmt = fmt) (hx : IsOperand fmt x) (hy : IsOperand fmt y)
    (product : nativeMul x y = .number w) : ArithSpec fmt x y w (realOf x * realOf y) :=
  arithSpec_of_values (fun _ => rfl) (fun X => by cases X <;> rfl) isInfinite_of_mulValues_left
    isInfinite_of_mulValues_right isExact_of_mulValues hx hy (hfmt ▸ product)

/-- What R666 says of a quotient `w`. -/
structure DivSpec (fmt : NativeFmt) (x y w : NativeWord) : Prop where
  small : IsSmallOrInf fmt w
  onFinite : isFinite x = true → isFinite y = true → realOf y ≠ 0 → isFinite w = true ∧ realOf w = realOf x / realOf y
  byZero : isFinite x = true → isFinite y = true → realOf y = 0 → isInf w = true
  byInfinity : isFinite x = true → isInf y = true → isFinite w = true ∧ realOf w = 0
  infinite : isInf x = true → isInf w = true

theorem nativeDiv_spec (hfmt : x.fmt = fmt) (hx : IsOperand fmt x) (hy : IsOperand fmt y)
    (quotient : nativeDiv x y = .number w) : DivSpec fmt x y w := by
  rw [nativeDiv, hfmt] at quotient
  cases hx with
  | nan valueX => rw [valueX] at quotient; cases quotient
  | infinite s valueX infX notFiniteX =>
    cases hy with
    | nan valueY => rw [valueX, valueY] at quotient; cases quotient
    | infinite t valueY => rw [valueX, valueY] at quotient; cases quotient
    | finite t b _ valueY =>
      rw [valueX, valueY] at quotient
      have inf := isInfinite_of_number quotient
      exact ⟨inf.small, by simp [notFiniteX], by simp [notFiniteX], by simp [notFiniteX], fun _ => inf.inf⟩
  | finite s a ha valueX notInfX finiteX realX =>
    cases hy with
    | nan valueY => rw [valueX, valueY] at quotient; cases quotient
    | infinite t valueY infY notFiniteY =>
      rw [valueX, valueY] at quotient
      have isExact : IsExact fmt w 0 := by
        obtain rfl := NativeResult.number.inj quotient
        rw [zeroWord_eq_intWord]
        exact isExact_intWord_zero
      exact ⟨isExact.small, by simp [notFiniteY], by simp [notFiniteY], fun _ _ => ⟨isExact.finite, isExact.real⟩,
        by simp [notInfX]⟩
    | finite t b hb valueY notInfY finiteY realY =>
      rw [valueX, valueY] at quotient
      obtain rfl | rfl := Nat.le_one_iff_eq_zero_or_eq_one.mp hb
      · rw [zero_mul] at quotient
        have inf := isInfinite_of_divValues_zero quotient
        have zero : realOf y = 0 := by simp [realY, signedMag]
        exact ⟨inf.small, by simp [zero], fun _ _ _ => inf.inf, by simp [notInfY], by simp [notInfX]⟩
      · have isExact := isExact_of_divValues_one ha quotient
        rw [← realX, ← realY] at isExact
        have nonzero : realOf y ≠ 0 := realY ▸ signedMag_one_ne_zero t
        exact ⟨isExact.small, fun _ _ _ => ⟨isExact.finite, isExact.real⟩, by simp [nonzero], by simp [notInfY],
          by simp [notInfX]⟩

/-- What R665 and R666 say of a remainder `w`. -/
structure RemSpec (fmt : NativeFmt) (x y w : NativeWord) : Prop where
  small : IsSmallOrInf fmt w
  onFinite : isFinite x = true → isFinite y = true →
    isFinite w = true ∧ realOf y ≠ 0 ∧ realOf w = realOf x - realOf y * truncQ (realOf x / realOf y)
  byInfinity : isFinite x = true → isInf y = true → isFinite w = true ∧ realOf w = realOf x

theorem nativeRem_spec (hfmt : x.fmt = fmt) (hx : IsOperand fmt x) (hy : IsOperand fmt y)
    (remainder : nativeRem x y = .number w) : RemSpec fmt x y w := by
  rw [nativeRem, hfmt] at remainder
  cases hx with
  | nan valueX => rw [valueX] at remainder; cases remainder
  | infinite s valueX =>
    rw [valueX] at remainder
    cases hy with
    | nan valueY => rw [valueY] at remainder; cases remainder
    | infinite t valueY => rw [valueY] at remainder; cases remainder
    | finite t b _ valueY => rw [valueY] at remainder; cases remainder
  | finite s a ha valueX _ _ realX =>
    rw [valueX] at remainder
    cases hy with
    | nan valueY => rw [valueY] at remainder; cases remainder
    | infinite t valueY _ notFiniteY =>
      rw [valueY] at remainder
      have isExact : IsExact fmt w (realOf x) := by
        obtain rfl := NativeResult.number.inj remainder
        rw [realX]
        exact isExact_intWord (ha.trans (by decide))
      exact ⟨isExact.small, by simp [notFiniteY], fun _ _ => ⟨isExact.finite, isExact.real⟩⟩
    | finite t b hb valueY notInfY _ realY =>
      rw [valueY] at remainder
      obtain ⟨rfl, isExact⟩ := isExact_of_remValues hb remainder
      have nonzero : realOf y ≠ 0 := realY ▸ signedMag_one_ne_zero t
      have truncated : realOf y * truncQ (realOf x / realOf y) = realOf x := by
        have integer : realOf x / realOf y = signedMag (s ^^^ t) a := by rw [realX, realY, signedMag_div_one]
        rw [integer, truncQ_intCast, ← integer, mul_div_cancel₀ _ nonzero]
      exact ⟨isExact.small, fun _ _ => ⟨isExact.finite, nonzero, by rw [isExact.real, truncated, sub_self]⟩,
        by simp [notInfY]⟩

end

/-- Settles O52, operation by operation. -/
theorem nativeResultsAreExact : Obligations.NativeResultsAreExact := by
  intro n v u w hn x y add sub mul div rem
  have hx : IsOperand n.fmt x := isOperand_native hn v
  have hy : IsOperand n.fmt y := isOperand_native hn u
  have addSpec (h : add) := nativeAdd_spec (native_fmt n v) hx hy h
  have subSpec (h : sub) := nativeSub_spec (native_fmt n v) hx hy h
  have mulSpec (h : mul) := nativeMul_spec (native_fmt n v) hx hy h
  have divSpec (h : div) := nativeDiv_spec (native_fmt n v) hx hy h
  have remSpec (h : rem) := nativeRem_spec (native_fmt n v) hx hy h
  refine ⟨?small, fun finX finY => ?finite, fun finX infY => ?overInfinity, ?infinite, ?infiniteDividend⟩
  case small =>
    rintro (h | h | h | h | h)
    exacts [(addSpec h).small, (subSpec h).small, (mulSpec h).small, (divSpec h).small, (remSpec h).small]
  case finite =>
    exact ⟨fun h => (addSpec h).onFinite finX finY, fun h => (subSpec h).onFinite finX finY,
      fun h => (mulSpec h).onFinite finX finY, fun h => (divSpec h).onFinite finX finY,
      fun h => (divSpec h).byZero finX finY, fun h => (remSpec h).onFinite finX finY⟩
  case overInfinity => exact ⟨fun h => (divSpec h).byInfinity finX infY, fun h => (remSpec h).byInfinity finX infY⟩
  case infinite =>
    rintro inf (h | h | h)
    exacts [(addSpec h).infinite inf, (subSpec h).infinite inf, (mulSpec h).infinite inf]
  case infiniteDividend => exact fun infX h => (divSpec h).infinite infX

end Sys2Proof.Machine
end

/-! The one exception, and the operations that raise none (60_exceptions.md R700, R701, R713). -/
section
namespace Sys2Proof.Machine

theorem step_of_mem_reservedOps {s : State} (h : s.inp.op ∈ reservedOps) :
    step s = .fault (.illegalOp s.inp.op (raiseErr s)) :=
  step_of_reserved (decode_of_mem_reservedOps s.inp.op h)

/-- Settles O5: the state recorded by the fault is `raiseErr s`, which drives `err` over outputs of 0. -/
theorem reservedOpFaultsWithErr : Obligations.ReservedOpFaultsWithErr :=
  fun _ h => ⟨step_of_mem_reservedOps h, fun _ _ => rfl⟩

/-- Settles O7: every operation completes, and a completed operation has driven `err` 0. -/
theorem everyOperationCompletes : Obligations.EveryOperationCompletes := by
  intro i s
  obtain ⟨t, done⟩ := exec_completes i s
  exact ⟨t, done, exec_err done⟩

/-- An assigned `op` completes, with `err = 0`. -/
theorem exists_step_next_of_assigned {s : State} (h : s.inp.op ∉ reservedOps) :
    ∃ t : State, step s = .next t ∧ t.out.err = 0#1 := by
  obtain ⟨i, -, run⟩ | ⟨reserved, -⟩ := step_cases s
  · rw [run]
    exact everyOperationCompletes i s
  · exact absurd (mem_reservedOps_of_decode_error reserved) h

/-- Once the host has driven its inputs, the state a fault leaves differs from the one before it in the outputs alone. -/
theorem step_drive_raiseErr (s : State) (x : Inputs) : step ((raiseErr s).drive x) = step (s.drive x) :=
  step_with_out (s.drive x) (raiseErr s).out

/-- Settles O6: a step does not read the outputs, which are all that a fault changes. -/
theorem errIsNotSticky : Obligations.ErrIsNotSticky := fun s reserved =>
  ⟨raiseErr s, step_of_mem_reservedOps reserved,
   fun x => ⟨step_drive_raiseErr s x, exists_step_next_of_assigned (s := (raiseErr s).drive x)⟩⟩

end Sys2Proof.Machine
end
